-- ==== Sys2Proof/Word.lean ====
section
/-! DEFINITION. The values the machine computes with, and the two explicit reductions of spec/00_scope.md R9. -/

namespace Sys2Proof

/-- An unsigned 8-bit value: a general register, a memory byte, a timer, an immediate NN (R9, R15). -/
abbrev Byte := BitVec 8

/-- An unsigned 16-bit value: an opcode, pc, I, a return address (R9, R18, R20, R21). -/
abbrev Word := BitVec 16

/-- A 4-bit register field X or Y: every value names one of V0..VF (R15, R51). -/
abbrev RegIdx := BitVec 4

/-- A 4-bit immediate N, the height of a sprite in rows (R51). -/
abbrev Nibble := BitVec 4

/-- A 12-bit address immediate NNN (R51). -/
abbrev Addr12 := BitVec 12

/-- `u8(v) = v mod 256` (R9): arithmetic is on unbounded integers and narrowed only here. -/
def u8 (v : Nat) : Byte := BitVec.ofNat 8 v

/-- `u16(v) = v mod 65536` (R9). -/
def u16 (v : Nat) : Word := BitVec.ofNat 16 v

end Sys2Proof
end

