-- ==== Sys2Proof/Config.lean ====
section
/-! DEFINITION. The implementation parameters of spec/00_scope.md R7 and the one free value of the machine.
The other parameters of R7 are widths and depths that stand in the types of State (spec/10_state.md). -/

namespace Sys2Proof.Config

/-- `MEM_SIZE`: addresses 0x000 to 0xFFF (R7, R34). -/
def memSize : Nat := 4096

/-- `PROG_START`: the reset value of pc and the address a ROM is loaded at (R7, R40). -/
def progStart : Nat := 0x200

/-- `MAX_ROM`: 4096 - 512 bytes (R7, R130). -/
def maxRom : Nat := 3584

/-- `FONT_BASE` glyph stride: 5 bytes a glyph, glyph d at address d * 5 (R7, R31). -/
def glyphBytes : Nat := 5

/-- FREE VALUE (log 1; R69, decision D14): the random byte of the `n`-th draw. The spec fixes no generator, seed or
distribution, so nothing is known of it: it has no body. `State.draws` is the `n` it is applied to. -/
opaque randomByte : Nat → Byte

end Sys2Proof.Config
end

