-- ==== Sys2Proof/Syntax.lean ====
section
/-! DEFINITION. The instruction set: one constructor per row of spec/opcode_table.json (spec/30_encoding.md R52), its
operands the fields of R12 and R51. Every operand type is exactly the range of its field. -/

namespace Sys2Proof

/-- The 34 instruction forms of R52, in the table's order; each docstring gives the row's pattern and mnemonic. -/
inductive Instr where
  /-- 00E0 CLS -/
  | cls
  /-- 00EE RET -/
  | ret
  /-- 1NNN JP -/
  | jp (nnn : Addr12)
  /-- 2NNN CALL -/
  | call (nnn : Addr12)
  /-- 3XNN SE_IMM -/
  | seImm (x : RegIdx) (nn : Byte)
  /-- 4XNN SNE_IMM -/
  | sneImm (x : RegIdx) (nn : Byte)
  /-- 5XY0 SE_REG -/
  | seReg (x y : RegIdx)
  /-- 6XNN LD_IMM -/
  | ldImm (x : RegIdx) (nn : Byte)
  /-- 7XNN ADD_IMM -/
  | addImm (x : RegIdx) (nn : Byte)
  /-- 8XY0 LD_REG -/
  | ldReg (x y : RegIdx)
  /-- 8XY1 OR -/
  | or (x y : RegIdx)
  /-- 8XY2 AND -/
  | and (x y : RegIdx)
  /-- 8XY3 XOR -/
  | xor (x y : RegIdx)
  /-- 8XY4 ADD_REG -/
  | addReg (x y : RegIdx)
  /-- 8XY5 SUB -/
  | sub (x y : RegIdx)
  /-- 8XY6 SHR; Y is in the word and has no effect (R87) -/
  | shr (x y : RegIdx)
  /-- 8XY7 SUBN -/
  | subn (x y : RegIdx)
  /-- 8XYE SHL; Y is in the word and has no effect (R89) -/
  | shl (x y : RegIdx)
  /-- 9XY0 SNE_REG -/
  | sneReg (x y : RegIdx)
  /-- ANNN LD_I -/
  | ldI (nnn : Addr12)
  /-- BNNN JP_V0 -/
  | jpV0 (nnn : Addr12)
  /-- CXNN RND -/
  | rnd (x : RegIdx) (nn : Byte)
  /-- DXYN DRW -/
  | drw (x y : RegIdx) (n : Nibble)
  /-- EX9E SKP -/
  | skp (x : RegIdx)
  /-- EXA1 SKNP -/
  | sknp (x : RegIdx)
  /-- FX07 LD_VX_DT -/
  | ldVxDt (x : RegIdx)
  /-- FX0A LD_VX_K -/
  | ldVxK (x : RegIdx)
  /-- FX15 LD_DT_VX -/
  | ldDtVx (x : RegIdx)
  /-- FX18 LD_ST_VX -/
  | ldStVx (x : RegIdx)
  /-- FX1E ADD_I_VX -/
  | addIVx (x : RegIdx)
  /-- FX29 LD_F_VX -/
  | ldFVx (x : RegIdx)
  /-- FX33 LD_B_VX -/
  | ldBVx (x : RegIdx)
  /-- FX55 LD_MEM_VX -/
  | ldMemVx (x : RegIdx)
  /-- FX65 LD_VX_MEM -/
  | ldVxMem (x : RegIdx)
  deriving DecidableEq, Repr

end Sys2Proof
end

