-- ==== Sys2Proof/WellFormed.lean ====
section
/-! DEFINITION. What is well formed: an instruction word (it matches a row of the opcode map, spec/30_encoding.md R52),
an instruction (its operands' types are the fields' ranges, R51, so only the row it belongs to is left to say), and a
ROM (it fits the program space, spec/70_reset_and_hazards.md R130). The opcode map here is R52's table of masks and
matches, written apart from the decoder, which follows R53's dispatch: the two are compared by statements. -/

namespace Sys2Proof

/-- One row of R52: a word belongs to the row when its bits under `mask` are `pattern`. -/
structure OpcodeRow where
  mnemonic : String
  mask : Word
  pattern : Word
  deriving DecidableEq, Repr

/-- Rows 1 to 17 of R52 (00E0 to 8XY7). -/
def opcodeRowsLow : List OpcodeRow := [
  ⟨"CLS", 0xFFFF#16, 0x00E0#16⟩,
  ⟨"RET", 0xFFFF#16, 0x00EE#16⟩,
  ⟨"JP", 0xF000#16, 0x1000#16⟩,
  ⟨"CALL", 0xF000#16, 0x2000#16⟩,
  ⟨"SE_IMM", 0xF000#16, 0x3000#16⟩,
  ⟨"SNE_IMM", 0xF000#16, 0x4000#16⟩,
  ⟨"SE_REG", 0xF00F#16, 0x5000#16⟩,
  ⟨"LD_IMM", 0xF000#16, 0x6000#16⟩,
  ⟨"ADD_IMM", 0xF000#16, 0x7000#16⟩,
  ⟨"LD_REG", 0xF00F#16, 0x8000#16⟩,
  ⟨"OR", 0xF00F#16, 0x8001#16⟩,
  ⟨"AND", 0xF00F#16, 0x8002#16⟩,
  ⟨"XOR", 0xF00F#16, 0x8003#16⟩,
  ⟨"ADD_REG", 0xF00F#16, 0x8004#16⟩,
  ⟨"SUB", 0xF00F#16, 0x8005#16⟩,
  ⟨"SHR", 0xF00F#16, 0x8006#16⟩,
  ⟨"SUBN", 0xF00F#16, 0x8007#16⟩]

/-- Rows 18 to 34 of R52 (8XYE to FX65). -/
def opcodeRowsHigh : List OpcodeRow := [
  ⟨"SHL", 0xF00F#16, 0x800E#16⟩,
  ⟨"SNE_REG", 0xF00F#16, 0x9000#16⟩,
  ⟨"LD_I", 0xF000#16, 0xA000#16⟩,
  ⟨"JP_V0", 0xF000#16, 0xB000#16⟩,
  ⟨"RND", 0xF000#16, 0xC000#16⟩,
  ⟨"DRW", 0xF000#16, 0xD000#16⟩,
  ⟨"SKP", 0xF0FF#16, 0xE09E#16⟩,
  ⟨"SKNP", 0xF0FF#16, 0xE0A1#16⟩,
  ⟨"LD_VX_DT", 0xF0FF#16, 0xF007#16⟩,
  ⟨"LD_VX_K", 0xF0FF#16, 0xF00A#16⟩,
  ⟨"LD_DT_VX", 0xF0FF#16, 0xF015#16⟩,
  ⟨"LD_ST_VX", 0xF0FF#16, 0xF018#16⟩,
  ⟨"ADD_I_VX", 0xF0FF#16, 0xF01E#16⟩,
  ⟨"LD_F_VX", 0xF0FF#16, 0xF029#16⟩,
  ⟨"LD_B_VX", 0xF0FF#16, 0xF033#16⟩,
  ⟨"LD_MEM_VX", 0xF0FF#16, 0xF055#16⟩,
  ⟨"LD_VX_MEM", 0xF0FF#16, 0xF065#16⟩]

/-- The opcode map of R52, whole, in its order. -/
def opcodeTable : List OpcodeRow := opcodeRowsLow ++ opcodeRowsHigh

/-- A word matches a row when its fixed bits are the row's (R52). -/
def OpcodeRow.accepts (r : OpcodeRow) (w : Word) : Bool := w &&& r.mask == r.pattern

/-- A word is an instruction exactly when it matches some row; any other word is illegal (R58). -/
def legalWord (w : Word) : Bool := opcodeTable.any (fun r => r.accepts w)

/-- The row of R52 an instruction belongs to, as its number there minus 1. -/
def Instr.rowIndex : Instr → Nat
  | .cls => 0
  | .ret => 1
  | .jp _ => 2
  | .call _ => 3
  | .seImm _ _ => 4
  | .sneImm _ _ => 5
  | .seReg _ _ => 6
  | .ldImm _ _ => 7
  | .addImm _ _ => 8
  | .ldReg _ _ => 9
  | .or _ _ => 10
  | .and _ _ => 11
  | .xor _ _ => 12
  | .addReg _ _ => 13
  | .sub _ _ => 14
  | .shr _ _ => 15
  | .subn _ _ => 16
  | .shl _ _ => 17
  | .sneReg _ _ => 18
  | .ldI _ => 19
  | .jpV0 _ => 20
  | .rnd _ _ => 21
  | .drw _ _ _ => 22
  | .skp _ => 23
  | .sknp _ => 24
  | .ldVxDt _ => 25
  | .ldVxK _ => 26
  | .ldDtVx _ => 27
  | .ldStVx _ => 28
  | .addIVx _ => 29
  | .ldFVx _ => 30
  | .ldBVx _ => 31
  | .ldMemVx _ => 32
  | .ldVxMem _ => 33

/-- The row of R52 an instruction belongs to. -/
def Instr.row (i : Instr) : Option OpcodeRow := opcodeTable[i.rowIndex]?

/-- A ROM `loadProgram` accepts: at most 3584 bytes, none included (R130, decision D28). -/
def romFits (bytes : List Byte) : Bool := decide (bytes.length ≤ Config.maxRom)

end Sys2Proof
end

