-- ==== Sys2Proof/Decode.lean ====
section
/-! DEFINITION. Decoding (spec/30_encoding.md R49 to R58): total on every 16-bit word and on every pair of bytes, an
illegal word rejected by name; then the encoder, written from the same format (R50, R52). -/

namespace Sys2Proof

/-- The fields of the one instruction format (R12, R50). -/
def fieldG (op : Word) : BitVec 4 := op.extractLsb' 12 4

/-- `X = op[11:8]` (R12). -/
def fieldX (op : Word) : RegIdx := op.extractLsb' 8 4

/-- `Y = op[7:4]` (R12). -/
def fieldY (op : Word) : RegIdx := op.extractLsb' 4 4

/-- `N = op[3:0]` (R12). -/
def fieldN (op : Word) : Nibble := op.extractLsb' 0 4

/-- `NN = op[7:0]` (R12). -/
def fieldNN (op : Word) : Byte := op.extractLsb' 0 8

/-- `NNN = op[11:0]` (R12). -/
def fieldNNN (op : Word) : Addr12 := op.extractLsb' 0 12

/-- Why a word is no instruction. -/
inductive DecodeError where
  /-- The word matches no row of R52: `UnimplementedOpcode(op)` (R58, decision D3). Safe: the machine stops. -/
  | unimplementedOpcode (op : Word)
  deriving DecidableEq, Repr

/-- What the decoder answers. -/
abbrev Decoded := Except DecodeError Instr

/-- Group 0 (R57): two whole words. -/
def decode0 (op : Word) : Decoded :=
  if op = 0x00E0#16 then .ok .cls
  else if op = 0x00EE#16 then .ok .ret
  else .error (.unimplementedOpcode op)

/-- Groups 5 and 9 (R55): one form, low nibble 0. -/
def decodeLow0 (i : Instr) (op : Word) : Decoded :=
  if fieldN op = 0x0#4 then .ok i else .error (.unimplementedOpcode op)

/-- Group 8 (R56): the low nibble selects one of nine forms. -/
def decode8 (op : Word) : Decoded :=
  match fieldN op with
  | 0x0#4 => .ok (.ldReg (fieldX op) (fieldY op))
  | 0x1#4 => .ok (.or (fieldX op) (fieldY op))
  | 0x2#4 => .ok (.and (fieldX op) (fieldY op))
  | 0x3#4 => .ok (.xor (fieldX op) (fieldY op))
  | 0x4#4 => .ok (.addReg (fieldX op) (fieldY op))
  | 0x5#4 => .ok (.sub (fieldX op) (fieldY op))
  | 0x6#4 => .ok (.shr (fieldX op) (fieldY op))
  | 0x7#4 => .ok (.subn (fieldX op) (fieldY op))
  | 0xE#4 => .ok (.shl (fieldX op) (fieldY op))
  | _ => .error (.unimplementedOpcode op)

/-- Group E (R57): the low byte selects one of two forms. -/
def decodeE (op : Word) : Decoded :=
  match fieldNN op with
  | 0x9E#8 => .ok (.skp (fieldX op))
  | 0xA1#8 => .ok (.sknp (fieldX op))
  | _ => .error (.unimplementedOpcode op)

/-- Group F (R57): the low byte selects one of nine forms. -/
def decodeF (op : Word) : Decoded :=
  match fieldNN op with
  | 0x07#8 => .ok (.ldVxDt (fieldX op))
  | 0x0A#8 => .ok (.ldVxK (fieldX op))
  | 0x15#8 => .ok (.ldDtVx (fieldX op))
  | 0x18#8 => .ok (.ldStVx (fieldX op))
  | 0x1E#8 => .ok (.addIVx (fieldX op))
  | 0x29#8 => .ok (.ldFVx (fieldX op))
  | 0x33#8 => .ok (.ldBVx (fieldX op))
  | 0x55#8 => .ok (.ldMemVx (fieldX op))
  | 0x65#8 => .ok (.ldVxMem (fieldX op))
  | _ => .error (.unimplementedOpcode op)

/-- `decode(op)` (R53): a dispatch on the top nibble. All 16 groups are assigned, so the last arm is never reached; it
stands because a match on bits must end with one. -/
def decode (op : Word) : Decoded :=
  match fieldG op with
  | 0x0#4 => decode0 op
  | 0x1#4 => .ok (.jp (fieldNNN op))
  | 0x2#4 => .ok (.call (fieldNNN op))
  | 0x3#4 => .ok (.seImm (fieldX op) (fieldNN op))
  | 0x4#4 => .ok (.sneImm (fieldX op) (fieldNN op))
  | 0x5#4 => decodeLow0 (.seReg (fieldX op) (fieldY op)) op
  | 0x6#4 => .ok (.ldImm (fieldX op) (fieldNN op))
  | 0x7#4 => .ok (.addImm (fieldX op) (fieldNN op))
  | 0x8#4 => decode8 op
  | 0x9#4 => decodeLow0 (.sneReg (fieldX op) (fieldY op)) op
  | 0xA#4 => .ok (.ldI (fieldNNN op))
  | 0xB#4 => .ok (.jpV0 (fieldNNN op))
  | 0xC#4 => .ok (.rnd (fieldX op) (fieldNN op))
  | 0xD#4 => .ok (.drw (fieldX op) (fieldY op) (fieldN op))
  | 0xE#4 => decodeE op
  | 0xF#4 => decodeF op
  | _ => .error (.unimplementedOpcode op)

/-- The opcode of the bytes at pc and pc + 1: big-endian, the first byte is bits 15:8 (R35, R49). -/
def wordOfBytes (hi lo : Byte) : Word := hi ++ lo

/-- The byte an opcode stores at the lower address: bits 15:8 (R35). -/
def highByte (op : Word) : Byte := op.extractLsb' 8 8

/-- The byte an opcode stores at the higher address: bits 7:0 (R35). -/
def lowByte (op : Word) : Byte := op.extractLsb' 0 8

/-- Decode the two bytes of an instruction, in the order they stand in memory (R35, R53). -/
def decodeBytes (hi lo : Byte) : Decoded := decode (wordOfBytes hi lo)

/-- A word with fields G and NNN (R50). -/
def wordGNNN (g : BitVec 4) (nnn : Addr12) : Word := g ++ nnn

/-- A word with fields G, X and NN (R50). -/
def wordGXNN (g : BitVec 4) (x : RegIdx) (nn : Byte) : Word := g ++ x ++ nn

/-- A word with fields G, X, Y and N (R50). -/
def wordGXYN (g : BitVec 4) (x y : RegIdx) (n : Nibble) : Word := g ++ x ++ y ++ n

/-- The word of an instruction: its row of R52 with its operands in their fields. -/
def encode : Instr → Word
  | .cls => 0x00E0#16
  | .ret => 0x00EE#16
  | .jp nnn => wordGNNN 0x1#4 nnn
  | .call nnn => wordGNNN 0x2#4 nnn
  | .seImm x nn => wordGXNN 0x3#4 x nn
  | .sneImm x nn => wordGXNN 0x4#4 x nn
  | .seReg x y => wordGXYN 0x5#4 x y 0x0#4
  | .ldImm x nn => wordGXNN 0x6#4 x nn
  | .addImm x nn => wordGXNN 0x7#4 x nn
  | .ldReg x y => wordGXYN 0x8#4 x y 0x0#4
  | .or x y => wordGXYN 0x8#4 x y 0x1#4
  | .and x y => wordGXYN 0x8#4 x y 0x2#4
  | .xor x y => wordGXYN 0x8#4 x y 0x3#4
  | .addReg x y => wordGXYN 0x8#4 x y 0x4#4
  | .sub x y => wordGXYN 0x8#4 x y 0x5#4
  | .shr x y => wordGXYN 0x8#4 x y 0x6#4
  | .subn x y => wordGXYN 0x8#4 x y 0x7#4
  | .shl x y => wordGXYN 0x8#4 x y 0xE#4
  | .sneReg x y => wordGXYN 0x9#4 x y 0x0#4
  | .ldI nnn => wordGNNN 0xA#4 nnn
  | .jpV0 nnn => wordGNNN 0xB#4 nnn
  | .rnd x nn => wordGXNN 0xC#4 x nn
  | .drw x y n => wordGXYN 0xD#4 x y n
  | .skp x => wordGXNN 0xE#4 x 0x9E#8
  | .sknp x => wordGXNN 0xE#4 x 0xA1#8
  | .ldVxDt x => wordGXNN 0xF#4 x 0x07#8
  | .ldVxK x => wordGXNN 0xF#4 x 0x0A#8
  | .ldDtVx x => wordGXNN 0xF#4 x 0x15#8
  | .ldStVx x => wordGXNN 0xF#4 x 0x18#8
  | .addIVx x => wordGXNN 0xF#4 x 0x1E#8
  | .ldFVx x => wordGXNN 0xF#4 x 0x29#8
  | .ldBVx x => wordGXNN 0xF#4 x 0x33#8
  | .ldMemVx x => wordGXNN 0xF#4 x 0x55#8
  | .ldVxMem x => wordGXNN 0xF#4 x 0x65#8

/-- An instruction is well formed when its word matches its own row of R52. Its operands' types are the ranges of their
fields (R51), so no term of Instr is ill-formed; a word can be, and `legalWord` refuses it. -/
def Instr.wellFormed (i : Instr) : Bool :=
  match i.row with
  | some r => r.accepts (encode i)
  | none => false

/-- The host's question about one row of the opcode table: the instruction decoded from an instruction whose bits are
`w`, bit 0 the least significant of its first word. An instruction is one 16-bit word, high byte first in memory (R35,
R49); bits at and above `nbits` are 0 and bits above 15 do not exist (log 18). -/
def decodeTableWord (nbits w : Nat) : Option Instr :=
  let op := u16 (w % 2 ^ nbits)
  match decodeBytes (highByte op) (lowByte op) with
  | .ok i => some i
  | .error _ => none

end Sys2Proof
end

