-- ==== Sys2Proof/Machine/Font.lean ====
section
/-! DEFINITION. The built-in font (spec/10_state.md R31), as the named constant the spec asks for (decision D11). -/

namespace Sys2Proof.Machine

/-- Glyphs 0 to 7 of R31, at addresses 0x00 to 0x27. -/
def fontLow : List Byte := [
  0xF0, 0x90, 0x90, 0x90, 0xF0,
  0x20, 0x60, 0x20, 0x20, 0x70,
  0xF0, 0x10, 0xF0, 0x80, 0xF0,
  0xF0, 0x10, 0xF0, 0x10, 0xF0,
  0x90, 0x90, 0xF0, 0x10, 0x10,
  0xF0, 0x80, 0xF0, 0x10, 0xF0,
  0xF0, 0x80, 0xF0, 0x90, 0xF0,
  0xF0, 0x10, 0x20, 0x40, 0x40]

/-- Glyphs 8 to F of R31, at addresses 0x28 to 0x4F. -/
def fontHigh : List Byte := [
  0xF0, 0x90, 0xF0, 0x90, 0xF0,
  0xF0, 0x90, 0xF0, 0x10, 0xF0,
  0xF0, 0x90, 0xF0, 0x90, 0x90,
  0xE0, 0x90, 0xE0, 0x90, 0xE0,
  0xF0, 0x80, 0x80, 0x80, 0xF0,
  0xE0, 0x90, 0x90, 0x90, 0xE0,
  0xF0, 0x80, 0xF0, 0x80, 0xF0,
  0xF0, 0x80, 0xF0, 0x80, 0x80]

/-- `FONT` (R31, decision D11; log 2, UNVERIFIED: the spec marks these bytes as general knowledge, not in its source).
A claim that depends on a byte of it says so by naming it. -/
def FONT : List Byte := fontLow ++ fontHigh

end Sys2Proof.Machine
end

