-- ==== Sys2Proof/Machine/State.lean ====
section
/-! DEFINITION. The state of the block (spec/10_state.md R15 to R33), its reset value (R32, spec/70_reset_and_hazards.md
R129), and the reasons a step can stop (spec/60_exceptions.md R107). -/

namespace Sys2Proof.Machine

/-- The contents of memory `M` (R29): the bytes that differ from their reset contents, addresses rising (log 3, 20). -/
abbrev Memory := List Host.Cell

/-- The framebuffer `FB` (R25): 32 rows of 64 one-bit pixels; pixel `FB[x][y]` is bit `x` of row `y` (log 11). -/
abbrev Framebuffer := Vector (BitVec 64) 32

/-- Everything the block holds, under the spec's own names (R10), and the model's own `draws`. -/
structure State where
  /-- V0..VF (R15); VF is the flag register (R16). -/
  V : Vector Byte 16
  /-- The index register, 16 bits (R20). -/
  I : Word
  /-- The program counter, the address of the instruction being executed (R18, R19). -/
  pc : Word
  /-- The return-address stack; entries at `SP` and above are stale (R21, R33, log 10). -/
  S : Vector Word 16
  /-- The number of live stack entries, 0..16 (R22, log 9). -/
  SP : Fin 17
  /-- The delay timer (R23). -/
  DT : Byte
  /-- The sound timer (R24). -/
  ST : Byte
  /-- The framebuffer (R25). -/
  FB : Framebuffer
  /-- The keypad latches, true when pressed (R26). -/
  KEY : Vector Bool 16
  /-- redrawPending (R27). -/
  RD : Bool
  /-- Memory (R29). -/
  M : Memory
  /-- THE MODEL'S OWN, not the spec's: how many random bytes have been drawn (log 1; R69). -/
  draws : Nat
  deriving DecidableEq, Repr

/-- Why a step or a host operation stops: the error kinds of R107 with the information they record, and the one case
the spec gives no meaning to (R131). An error changes no state (R66): the caller still holds the state it had (log 4). -/
inductive Fault where
  /-- Code 1, raised by `loadProgram` only: the ROM is longer than 3584 bytes (R130). Safe. -/
  | romTooLarge (length : Nat)
  /-- Code 2, raised by 2NNN at SP = 16 (R73). Safe. -/
  | callStackOverflow (pc : Word)
  /-- Code 3, raised by 00EE at SP = 0 (R71). Safe. -/
  | callStackUnderflow (pc : Word)
  /-- Code 4, raised by the decode of an illegal word (R58, decision D3). Safe. -/
  | unimplementedOpcode (pc : Word) (op : Word)
  /-- Code 5, raised by the fetch at pc above 4094 (R61) and by DXYN, FX33, FX55, FX65 (R94 to R96, R100); `address` is
  pc for a fetch and max(I, 0x1000) for data (R107). Safe. -/
  | memoryAddressOutOfRange (pc : Word) (address : Nat)
  /-- Code 6, raised by EX9E and EXA1 with Vx above 15 (R101, R102, decision D12). Safe. -/
  | keyIndexOutOfRange (pc : Word) (vx : Byte)
  /-- No error kind of R107: raised by every host operation but `reset` and `loadProgram` before the first of those,
  where the spec gives the operation no meaning (R131, log 7). Never raised by a step. Safe. -/
  | beforeFirstReset
  deriving DecidableEq, Repr

/-- Why something is refused rather than run. -/
inductive Refusal where
  /-- An instruction without a meaning; no arm of exec answers it. Safe. -/
  | notModelled (mnemonic : String)
  /-- `setKeyDown` or `setKeyUp` with an index above 15: refused, nothing changed (R119, decision D21). Safe. -/
  | hostKeyIndexOutOfRange (k : Nat)
  deriving DecidableEq, Repr

/-- What a step or a meaning answers. -/
abbrev Result := Host.Outcome State Fault Refusal

/-- The state right after `reset` (R32, R129). Memory lists nothing: it reads as its reset contents, the font and zeros
(log 3). `draws` is the model's own (log 1, DESIGN CHOICE). -/
def State.reset : State where
  V := Vector.replicate 16 0
  I := 0
  pc := u16 Config.progStart
  S := Vector.replicate 16 0
  SP := 0
  DT := 0
  ST := 0
  FB := Vector.replicate 32 0
  KEY := Vector.replicate 16 false
  RD := false
  M := []
  draws := 0

end Sys2Proof.Machine
end

