-- ==== Sys2Proof/Machine/Ops.lean ====
section
/-! DEFINITION. The named operations over memory, registers, stack, pixels and pc that the meanings are made of; the
raising of an error; the fetch. -/

namespace Sys2Proof.Machine

/-! ### Memory -/

/-- What an address reads as after reset: the font at 0x000..0x04F, 0 elsewhere (R32, R40). An unlisted address reads
as this (log 3). -/
def Memory.initial (a : Nat) : Byte := FONT.getD a 0

/-- The listed byte of an address, if it is listed. -/
def Memory.lookup : Memory → Nat → Option Byte
  | [], _ => none
  | (a, b) :: m, k => if a = k then some b else Memory.lookup m k

/-- `M[a]` (R10): the listed byte, else the reset contents. A read has no effect (R42). -/
def Memory.read (m : Memory) (a : Nat) : Byte := (m.lookup a).getD (Memory.initial a)

/-- Puts a byte at its place in the rising list, in place of the one listed there. -/
def Memory.insert : Memory → Nat → Byte → Memory
  | [], k, v => [(k, v)]
  | (a, b) :: m, k, v =>
    if k < a then (k, v) :: (a, b) :: m
    else if k = a then (k, v) :: m
    else (a, b) :: Memory.insert m k v

/-- Takes an address out of the list. -/
def Memory.erase (m : Memory) (k : Nat) : Memory := m.filter (fun c => c.1 != k)

/-- `M[a] <- v` (R10, R42): writing the reset contents removes the entry, so that equal memories are equal lists. -/
def Memory.write (m : Memory) (a : Nat) (v : Byte) : Memory :=
  if v = Memory.initial a then m.erase a else m.insert a v

/-- Single-byte writes at `a`, `a + 1`, … in rising order (R36). -/
def Memory.writeBytes : Memory → Nat → List Byte → Memory
  | m, _, [] => m
  | m, a, b :: bs => Memory.writeBytes (m.write a b) (a + 1) bs

/-- Single-byte reads at `a`, …, `a + n - 1` (R36). -/
def Memory.readBytes (m : Memory) : Nat → Nat → List Byte
  | _, 0 => []
  | a, n + 1 => m.read a :: Memory.readBytes m (a + 1) n

/-- The canonical form from address `lo` on: addresses rising, inside 0..4095 (R29, R39), no entry equal to what the
address reads as unlisted. -/
def Memory.wfFrom : Nat → Memory → Bool
  | _, [] => true
  | lo, (a, b) :: m =>
    decide (lo ≤ a) && decide (a < Config.memSize) && (b != Memory.initial a) && Memory.wfFrom (a + 1) m

/-- The one canonical form of memory (log 20). -/
def Memory.wf (m : Memory) : Bool := Memory.wfFrom 0 m

/-! ### Registers -/

/-- The index of VF, the flag register (R16). -/
def VF : RegIdx := 0xF#4

/-- `V[x]` (R10, R15): no index is out of range. -/
def State.reg (s : State) (x : RegIdx) : Byte := s.V[x.toNat]'x.isLt

/-- `V[x] <- b` (R10, R15): no register is hard-wired or aliased. -/
def State.setReg (s : State) (x : RegIdx) (b : Byte) : State := { s with V := s.V.set x.toNat b x.isLt }

/-- `I <- w` (R20): all 16 bits are kept. -/
def State.setI (s : State) (w : Word) : State := { s with I := w }

/-- `pc <- w` (R18). -/
def State.setPc (s : State) (w : Word) : State := { s with pc := w }

/-- `advance(n)`: `pc <- u16(pc + n)` (R11). -/
def State.advance (s : State) (n : Nat) : State := s.setPc (u16 (s.pc.toNat + n))

/-- The pc class "sequential" (R63): past this 2-byte instruction. -/
def State.nextInstr (s : State) : State := s.advance 2

/-- The pc class "skip" (R63): past the next instruction too when the condition holds. -/
def State.skipIf (s : State) (c : Bool) : State := if c then s.advance 4 else s.advance 2

/-- `DT <- b` (R23). -/
def State.setDT (s : State) (b : Byte) : State := { s with DT := b }

/-- `ST <- b` (R24). -/
def State.setST (s : State) (b : Byte) : State := { s with ST := b }

/-- All of memory at once, as the memory operations give it. -/
def State.setM (s : State) (m : Memory) : State := { s with M := m }

/-- All of the register file at once, as a block load gives it (R96). -/
def State.setV (s : State) (v : Vector Byte 16) : State := { s with V := v }

/-- A new framebuffer, with redrawPending set: every 00E0 and every DXYN that executes sets RD (R27, decision D19). -/
def State.redraw (s : State) (fb : Framebuffer) : State := { s with FB := fb, RD := true }

/-- One more random byte has been drawn (log 1). -/
def State.countDraw (s : State) : State := { s with draws := s.draws + 1 }

/-! ### The return-address stack -/

/-- `S[SP] <- w; SP <- SP + 1`; none when the stack already holds 16 entries (R22, R73). -/
def State.push (s : State) (w : Word) : Option State :=
  if h : s.SP.val < 16 then
    some { s with S := s.S.set s.SP.val w h, SP := ⟨s.SP.val + 1, Nat.succ_lt_succ h⟩ }
  else none

/-- `SP <- SP - 1`, with `S[SP]` read at the decremented SP; none when the stack is empty (R22, R71). The popped entry
stays in `S` as a stale value (R33, log 10). -/
def State.pop (s : State) : Option (Word × State) :=
  if h : s.SP.val = 0 then none
  else
    some (s.S[s.SP.val - 1]'(Nat.lt_of_lt_of_le (Nat.sub_lt (Nat.pos_of_ne_zero h) Nat.one_pos) (Nat.le_of_lt_succ s.SP.isLt)),
      { s with SP := ⟨s.SP.val - 1, Nat.lt_of_le_of_lt (Nat.sub_le _ _) s.SP.isLt⟩ })

/-! ### Pixels -/

/-- `FB[x][y]` (R10, R25): column x, row y. -/
def Framebuffer.pixel (fb : Framebuffer) (x : Fin 64) (y : Fin 32) : Bool := fb[y.val].getLsbD x.val

/-- `FB[x][y] <- FB[x][y] ^ 1` (R100). -/
def Framebuffer.flip (fb : Framebuffer) (x : Fin 64) (y : Fin 32) : Framebuffer :=
  fb.set y.val (fb[y.val] ^^^ BitVec.twoPow 64 x.val)

/-- Every pixel off (R99, R129). -/
def Framebuffer.clear : Framebuffer := Vector.replicate 32 0

/-! ### Errors -/

/-- `raise E(info)` (R11): the step ends with the error as its result. The block has no trap mechanism: an error goes to
no vector, saves nothing and changes nothing (R66, R111), and there is no return from one (R112). The caller still holds
the state from before the step (log 4). -/
def raise (f : Fault) : Result := .fault f

/-- The bounds check of an access to the `n` bytes from `I` on (R39, R107): addresses on unbounded integers, the error
with the lowest of them above 0xFFF; no byte touched, no check. -/
def State.rangeFault (s : State) (n : Nat) : Option Fault :=
  if 0 < n ∧ 0xFFF < s.I.toNat + n - 1 then some (.memoryAddressOutOfRange s.pc (max s.I.toNat 0x1000))
  else none

/-! ### Fetch -/

/-- `fetch(pc)` (R35, R61): the big-endian word at pc, even or odd (R38, decision D6, log 13); an error at pc above
4094, with the address pc (decision D5). -/
def State.fetch (s : State) : Except Fault Word :=
  if 4094 < s.pc.toNat then .error (.memoryAddressOutOfRange s.pc s.pc.toNat)
  else .ok (wordOfBytes (s.M.read s.pc.toNat) (s.M.read (s.pc.toNat + 1)))

/-- Fetch, then decode (R61, R62): the errors of a step before its instruction, in the order of R110. -/
def State.fetchInstr (s : State) : Except Fault Instr :=
  match s.fetch with
  | .error f => .error f
  | .ok op =>
    match decode op with
    | .ok i => .ok i
    | .error (.unimplementedOpcode w) => .error (.unimplementedOpcode s.pc w)

/-- An instruction word stored at pc, high byte first (R35), for `State.withFetchWord` (log 8); nothing where no fetch
could read it. -/
def State.storeAtPc (s : State) (op : Word) : State :=
  if 4094 < s.pc.toNat then s
  else s.setM (s.M.writeBytes s.pc.toNat [highByte op, lowByte op])

end Sys2Proof.Machine
end

