-- ==== Sys2Proof/Machine/Operands.lean ====
section
/-! DEFINITION. The operand forms (spec/30_encoding.md R51): what an operand stands for, always read from the state
before the instruction (spec/40_step_cycle.md R67). Vx, Vy and V0 are `State.reg`; NN and N are used as they are. -/

namespace Sys2Proof.Machine

/-- `zext_16(NNN)` (R9, R51): a jump, call or index target. -/
def target (nnn : Addr12) : Word := nnn.setWidth 16

/-- The target of BNNN: NNN + V0, not reduced to 12 bits (R74, decision D7). -/
def State.offsetTarget (s : State) (nnn : Addr12) : Word := u16 (nnn.toNat + (s.reg 0x0#4).toNat)

/-- The font glyph of a value: value * 5, the value not masked to a nibble (R93, decision D7). -/
def glyphAddress (a : Byte) : Word := u16 (a.toNat * Config.glyphBytes)

/-- The hundreds, tens and ones of a value (R94). -/
def decimalDigits (a : Byte) : List Byte := [u8 (a.toNat / 100), u8 (a.toNat / 10 % 10), u8 (a.toNat % 10)]

/-- How many registers `V0..Vx` is, both ends included (R95, R96). -/
def upTo (x : RegIdx) : Nat := x.toNat + 1

/-- The bytes of the first `n` registers, V0 first (R95). -/
def firstRegs (v : Vector Byte 16) (n : Nat) : List Byte := v.toList.take n

/-- `for k in 0..n-1: V[k] <- M[i + k]` (R96). -/
def loadRegs (v : Vector Byte 16) (m : Memory) (i : Nat) : Nat → Vector Byte 16
  | 0 => v
  | k + 1 => (loadRegs v m i k).setIfInBounds k (m.read (i + k))

/-- The latch a key index names; none above 15 (R101, R102, decision D12). -/
def State.keyLatch (s : State) (a : Byte) : Option Bool := s.KEY[a.toNat]?

/-- The key numbers in rising order. -/
def keyNumbers : List (Fin 16) := [0, 1, 2, 3, 4, 5, 6, 7, 8, 9, 10, 11, 12, 13, 14, 15]

/-- `min { k | KEY[k] }` (R104); none when no key is pressed. -/
def State.lowestKey (s : State) : Option (Fin 16) := keyNumbers.find? (fun k => s.KEY[k.val])

end Sys2Proof.Machine
end

