-- ==== Sys2Proof/Machine/Flags.lean ====
section
/-! DEFINITION. The values VF receives (spec/10_state.md R16). Each is computed on the operands from before the
instruction, on unbounded integers, and VF is written after the result (spec/40_step_cycle.md R67, R68; log 14). -/

namespace Sys2Proof.Machine

/-- A flag as the byte VF holds: 1 or 0. -/
def flagByte (c : Bool) : Byte := if c then 1 else 0

/-- VF <- flag, the last write of a flag-producing instruction (R68). -/
def State.setFlag (s : State) (b : Byte) : State := s.setReg VF b

/-- The carry of 8XY4: the unwrapped sum exceeds 255 (R85, conflict C1). -/
def carry (a b : Byte) : Byte := flagByte (decide (a.toNat + b.toNat > 255))

/-- The flag of `a - b` in 8XY5 and 8XY7: 0 on borrow, 1 otherwise, so 1 for equal operands (R86, R88). -/
def notBorrow (a b : Byte) : Byte := flagByte (!decide (b.toNat > a.toNat))

/-- The bit 8XY6 shifts out: bit 0 of the old Vx (R87). -/
def shiftedOutRight (a : Byte) : Byte := u8 (a.toNat % 2)

/-- The bit 8XYE shifts out: bit 7 of the old Vx (R89). -/
def shiftedOutLeft (a : Byte) : Byte := u8 (a.toNat / 128)

/-- The flag of FX1E: the unreduced sum leaves the 12-bit address range (R92). -/
def leavesAddressRange (i : Word) (a : Byte) : Byte := flagByte (decide (i.toNat + a.toNat > 0xFFF))

/-- The flag of DXYN: some pixel went from 1 to 0 (R100). -/
def collisionFlag (c : Bool) : Byte := flagByte c

end Sys2Proof.Machine
end

