-- ==== Sys2Proof/Machine/Alu.lean ====
section
/-! DEFINITION. Register loads and arithmetic (spec/42_alu.md R79 to R90). Every instruction here goes on to the next one
and raises no error. -/

namespace Sys2Proof.Machine

/-- `V[x] <- b; pc <- u16(pc + 2)`, no flag. -/
def State.writeReg (s : State) (x : RegIdx) (b : Byte) : Result := .next (s.setReg x b).nextInstr

/-- `V[x] <- b; V[15] <- flag; pc <- u16(pc + 2)`: the result first, VF last (R68). -/
def State.writeRegFlag (s : State) (x : RegIdx) (b flag : Byte) : Result :=
  .next ((s.setReg x b).setFlag flag).nextInstr

/-- 6XNN LD_IMM (R79). -/
def execLdImm (x : RegIdx) (nn : Byte) (s : State) : Result := s.writeReg x nn

/-- 7XNN ADD_IMM (R80): wraps, with no flag effect. -/
def execAddImm (x : RegIdx) (nn : Byte) (s : State) : Result := s.writeReg x (u8 ((s.reg x).toNat + nn.toNat))

/-- 8XY0 LD_REG (R81). -/
def execLdReg (x y : RegIdx) (s : State) : Result := s.writeReg x (s.reg y)

/-- 8XY1 OR (R82): VF is not reset. -/
def execOr (x y : RegIdx) (s : State) : Result := s.writeReg x (s.reg x ||| s.reg y)

/-- 8XY2 AND (R83): VF is not reset. -/
def execAnd (x y : RegIdx) (s : State) : Result := s.writeReg x (s.reg x &&& s.reg y)

/-- 8XY3 XOR (R84): VF is not reset. -/
def execXor (x y : RegIdx) (s : State) : Result := s.writeReg x (s.reg x ^^^ s.reg y)

/-- 8XY4 ADD_REG (R85). -/
def execAddReg (x y : RegIdx) (s : State) : Result :=
  s.writeRegFlag x (u8 ((s.reg x).toNat + (s.reg y).toNat)) (carry (s.reg x) (s.reg y))

/-- 8XY5 SUB (R86): Vx - Vy. -/
def execSub (x y : RegIdx) (s : State) : Result :=
  s.writeRegFlag x (u8 ((s.reg x).toNat + 256 - (s.reg y).toNat)) (notBorrow (s.reg x) (s.reg y))

/-- 8XY6 SHR (R87): Vx is shifted, whatever Y is. -/
def execShr (x _y : RegIdx) (s : State) : Result :=
  s.writeRegFlag x (u8 ((s.reg x).toNat / 2)) (shiftedOutRight (s.reg x))

/-- 8XY7 SUBN (R88): Vy - Vx. -/
def execSubn (x y : RegIdx) (s : State) : Result :=
  s.writeRegFlag x (u8 ((s.reg y).toNat + 256 - (s.reg x).toNat)) (notBorrow (s.reg y) (s.reg x))

/-- 8XYE SHL (R89): Vx is shifted, whatever Y is. -/
def execShl (x _y : RegIdx) (s : State) : Result :=
  s.writeRegFlag x (u8 ((s.reg x).toNat * 2)) (shiftedOutLeft (s.reg x))

/-- CXNN RND with the step's random byte as an argument (R69, R90). -/
def rndWith (rnd : Byte) (x : RegIdx) (nn : Byte) (s : State) : Result := s.countDraw.writeReg x (rnd &&& nn)

/-- CXNN RND (R90): the random byte is the free value of this draw (log 1, decision D14). -/
def execRnd (x : RegIdx) (nn : Byte) (s : State) : Result := rndWith (Config.randomByte s.draws) x nn s

end Sys2Proof.Machine
end

