-- ==== Sys2Proof/Machine/Control.lean ====
section
/-! DEFINITION. Control flow (spec/41_control_flow.md R71 to R78). No instruction here writes a flag, and none checks its
target: a bad one is an error of the next fetch (decision D25). -/

namespace Sys2Proof.Machine

/-- 00EE RET (R71): pops the address of the call and goes 2 past it. -/
def execRet (s : State) : Result :=
  match s.pop with
  | none => raise (.callStackUnderflow s.pc)
  | some (caller, t) => .next (t.setPc (u16 (caller.toNat + 2)))

/-- 1NNN JP (R72). -/
def execJp (nnn : Addr12) (s : State) : Result := .next (s.setPc (target nnn))

/-- 2NNN CALL (R73): pushes its own address, not the next one (R19). -/
def execCall (nnn : Addr12) (s : State) : Result :=
  match s.push s.pc with
  | none => raise (.callStackOverflow s.pc)
  | some t => .next (t.setPc (target nnn))

/-- BNNN JP_V0 (R74). -/
def execJpV0 (nnn : Addr12) (s : State) : Result := .next (s.setPc (s.offsetTarget nnn))

/-- 3XNN SE_IMM (R75). -/
def execSeImm (x : RegIdx) (nn : Byte) (s : State) : Result := .next (s.skipIf (s.reg x == nn))

/-- 4XNN SNE_IMM (R76). -/
def execSneImm (x : RegIdx) (nn : Byte) (s : State) : Result := .next (s.skipIf (s.reg x != nn))

/-- 5XY0 SE_REG (R77). -/
def execSeReg (x y : RegIdx) (s : State) : Result := .next (s.skipIf (s.reg x == s.reg y))

/-- 9XY0 SNE_REG (R78). -/
def execSneReg (x y : RegIdx) (s : State) : Result := .next (s.skipIf (s.reg x != s.reg y))

end Sys2Proof.Machine
end

