-- ==== Sys2Proof/Machine/Index.lean ====
section
/-! DEFINITION. The index register and memory transfers (spec/43_index_memory.md R91 to R96). Every address is checked
before anything is written (R39), and no transfer changes I. -/

namespace Sys2Proof.Machine

/-- A transfer of the `n` bytes from I on: the error of R39 if one lies above 0xFFF, else the new state. -/
def State.transfer (s : State) (n : Nat) (t : State) : Result :=
  match s.rangeFault n with
  | some f => raise f
  | none => .next t

/-- ANNN LD_I (R91). -/
def execLdI (nnn : Addr12) (s : State) : Result := .next (s.setI (target nnn)).nextInstr

/-- FX1E ADD_I_VX (R92): I modulo 65536, the flag on the unreduced sum. -/
def execAddIVx (x : RegIdx) (s : State) : Result :=
  .next ((s.setI (u16 (s.I.toNat + (s.reg x).toNat))).setFlag (leavesAddressRange s.I (s.reg x))).nextInstr

/-- FX29 LD_F_VX (R93). -/
def execLdFVx (x : RegIdx) (s : State) : Result := .next (s.setI (glyphAddress (s.reg x))).nextInstr

/-- FX33 LD_B_VX (R94). -/
def execLdBVx (x : RegIdx) (s : State) : Result :=
  s.transfer 3 (s.setM (s.M.writeBytes s.I.toNat (decimalDigits (s.reg x)))).nextInstr

/-- FX55 LD_MEM_VX (R95). -/
def execLdMemVx (x : RegIdx) (s : State) : Result :=
  s.transfer (upTo x) (s.setM (s.M.writeBytes s.I.toNat (firstRegs s.V (upTo x)))).nextInstr

/-- FX65 LD_VX_MEM (R96). -/
def execLdVxMem (x : RegIdx) (s : State) : Result :=
  s.transfer (upTo x) (s.setV (loadRegs s.V s.M s.I.toNat (upTo x))).nextInstr

end Sys2Proof.Machine
end

