-- ==== Sys2Proof/Machine/Display.lean ====
section
/-! DEFINITION. The display (spec/44_display.md R97 to R100): the XOR blit of a sprite, and the two instructions. -/

namespace Sys2Proof.Machine

/-- The pixel of a sprite row at column `col`: bit 7 is the leftmost (R97, decision D9, log 12). -/
def spriteBit (row : Byte) (col : Nat) : Bool := row.getLsbD (7 - col)

/-- The screen column of sprite column `col` from origin `a`: wrapped (R98, decision D8, log 12). -/
def screenX (a : Byte) (col : Nat) : Fin 64 := Fin.ofNat 64 (a.toNat + col)

/-- The screen row of sprite row `r` from origin `b`: wrapped modulo 32 (R98, conflict C2). -/
def screenY (b : Byte) (r : Nat) : Fin 32 := Fin.ofNat 32 (b.toNat + r)

/-- A draw in progress: the framebuffer so far, and whether a pixel has gone from 1 to 0. -/
structure Blit where
  fb : Framebuffer
  hit : Bool
  deriving DecidableEq, Repr

/-- One pixel of the sprite (R100): a set bit flips the screen's pixel, and counts as a hit when that pixel was on. -/
def drawPixel (a b : Byte) (row : Byte) (r : Nat) (d : Blit) (col : Nat) : Blit :=
  if spriteBit row col then
    { fb := d.fb.flip (screenX a col) (screenY b r), hit := d.hit || d.fb.pixel (screenX a col) (screenY b r) }
  else d

/-- The columns of a sprite row, left to right (R97). -/
def spriteCols : List Nat := [0, 1, 2, 3, 4, 5, 6, 7]

/-- One row of the sprite (R100). -/
def drawRow (a b : Byte) (d : Blit) (row : Byte) (r : Nat) : Blit := spriteCols.foldl (drawPixel a b row r) d

/-- The rows of the sprite from row `r` on, top to bottom (R97, R100). -/
def drawRows (a b : Byte) : List Byte → Nat → Blit → Blit
  | [], _, d => d
  | row :: rows, r, d => drawRows a b rows (r + 1) (drawRow a b d row r)

/-- The whole sprite onto a framebuffer, with no hit yet (R100). -/
def drawSprite (a b : Byte) (rows : List Byte) (fb : Framebuffer) : Blit := drawRows a b rows 0 { fb := fb, hit := false }

/-- 00E0 CLS (R99): RD is set even when nothing was on (decision D19). -/
def execCls (s : State) : Result := .next (s.redraw Framebuffer.clear).nextInstr

/-- What a DXYN that passes its check leaves (R100): the blit, VF last. -/
def State.draw (s : State) (d : Blit) : State := ((s.redraw d.fb).setFlag (collisionFlag d.hit)).nextInstr

/-- DXYN DRW (R100): N = 0 reads nothing, so it checks nothing, and still writes VF and RD. -/
def execDrw (x y : RegIdx) (n : Nibble) (s : State) : Result :=
  s.transfer n.toNat
    (s.draw (drawSprite (s.reg x) (s.reg y) (s.M.readBytes s.I.toNat n.toNat) s.FB))

end Sys2Proof.Machine
end

