-- ==== Sys2Proof/Machine/KeyTimer.lean ====
section
/-! DEFINITION. Keypad and timer instructions (spec/45_keypad_timers.md R101 to R106). None writes VF as a flag. -/

namespace Sys2Proof.Machine

/-- EX9E SKP (R101). -/
def execSkp (x : RegIdx) (s : State) : Result :=
  match s.keyLatch (s.reg x) with
  | none => raise (.keyIndexOutOfRange s.pc (s.reg x))
  | some down => .next (s.skipIf down)

/-- EXA1 SKNP (R102). -/
def execSknp (x : RegIdx) (s : State) : Result :=
  match s.keyLatch (s.reg x) with
  | none => raise (.keyIndexOutOfRange s.pc (s.reg x))
  | some down => .next (s.skipIf (!down))

/-- FX07 LD_VX_DT (R103). -/
def execLdVxDt (x : RegIdx) (s : State) : Result := s.writeReg x s.DT

/-- FX0A LD_VX_K (R104): with no key pressed the outcome is Waiting, a step that changes nothing, pc included (log 5). -/
def execLdVxK (x : RegIdx) (s : State) : Result :=
  match s.lowestKey with
  | none => .next s
  | some k => s.writeReg x (u8 k.val)

/-- FX15 LD_DT_VX (R105). -/
def execLdDtVx (x : RegIdx) (s : State) : Result := .next (s.setDT (s.reg x)).nextInstr

/-- FX18 LD_ST_VX (R106). -/
def execLdStVx (x : RegIdx) (s : State) : Result := .next (s.setST (s.reg x)).nextInstr

end Sys2Proof.Machine
end

