-- ==== Sys2Proof/Machine/Step.lean ====
section
/-! DEFINITION. One step (spec/40_step_cycle.md R61): fetch, decode, execute. -/

namespace Sys2Proof.Machine

/-- `step` (R61): performs exactly one instruction, or ends with the error of the fetch, the decode or the instruction, in
that order (R110). The step's random byte is the free value of log 1. The host's other operations stand in HostOps. -/
def step (s : State) : Host.Outcome State Fault Refusal :=
  match s.fetchInstr with
  | .error f => raise f
  | .ok i => exec i s

/-- `s` with the instruction whose bits are `w` stored at pc, high byte first, so that the next step fetches it (log 8,
log 18). -/
def State.withFetchWord (s : State) (nbits w : Nat) : State := s.storeAtPc (u16 (w % 2 ^ nbits))

end Sys2Proof.Machine
end

