-- ==== Sys2Proof/Machine/HostOps.lean ====
section
/-! DEFINITION. The host interface (spec/60_exceptions.md R116 to R123, spec/70_reset_and_hazards.md R129 to R132): the nine
atomic operations of the block, one at a time, and what each reports. `none` is the machine before its first reset (R131,
log 7). The host chooses the sequence of operations; a statement about it holds for every sequence (R118, R127, log 6). -/

namespace Sys2Proof.Machine

/-! ### The error record -/

/-- The numeric code of an error kind (R107); `beforeFirstReset` is no error kind. -/
def Fault.code : Fault → Option Nat
  | .romTooLarge _ => some 1
  | .callStackOverflow _ => some 2
  | .callStackUnderflow _ => some 3
  | .unimplementedOpcode _ _ => some 4
  | .memoryAddressOutOfRange _ _ => some 5
  | .keyIndexOutOfRange _ _ => some 6
  | .beforeFirstReset => none

/-- The pc an error of a step carries (R107, R109). -/
def Fault.atPc : Fault → Option Word
  | .romTooLarge _ => none
  | .callStackOverflow pc => some pc
  | .callStackUnderflow pc => some pc
  | .unimplementedOpcode pc _ => some pc
  | .memoryAddressOutOfRange pc _ => some pc
  | .keyIndexOutOfRange pc _ => some pc
  | .beforeFirstReset => none

/-- The kind-specific information an error carries (R107, R109). -/
def Fault.info : Fault → Option Nat
  | .romTooLarge length => some length
  | .callStackOverflow pc => some pc.toNat
  | .callStackUnderflow pc => some pc.toNat
  | .unimplementedOpcode _ op => some op.toNat
  | .memoryAddressOutOfRange _ address => some address
  | .keyIndexOutOfRange _ vx => some vx.toNat
  | .beforeFirstReset => none

/-! ### The operations -/

/-- `reset` on a machine that has run before (R129): the reset state. Only the model's own draw counter goes on, so that
no random byte is drawn twice (log 17). -/
def State.resetAgain (s : State) : State := { State.reset with draws := s.draws }

/-- The copy of `loadProgram` into a just-reset machine (R130). -/
def State.loadRom (s : State) (bytes : List Byte) : State := s.setM (s.M.writeBytes Config.progStart bytes)

/-- `step` with its random byte as an argument (R61, R69, R116). `step` of Step.lean is this with the free value of
log 1 as the byte. -/
def stepWith (rnd : Byte) (s : State) : Result :=
  match s.fetchInstr with
  | .error f => raise f
  | .ok (.rnd x nn) => rndWith rnd x nn s
  | .ok i => exec i s

/-- The next step is an FX0A with no key pressed: its outcome is Waiting (R65, R104, R124). -/
def State.waits (s : State) : Bool :=
  match s.fetchInstr with
  | .ok (.ldVxK _) => s.lowestKey.isNone
  | _ => false

/-- A timer one tick later: never below 0 (R23, R117). -/
def ticked (t : Byte) : Byte := if t.toNat > 0 then u8 (t.toNat - 1) else t

/-- `tickTimers` (R117): both timers together, nothing else. -/
def State.tickTimers (s : State) : State := { s with DT := ticked s.DT, ST := ticked s.ST }

/-- `KEY[k] <- down` for a key 0..15; none for another (R119, decision D21). -/
def State.setKey (s : State) (k : Nat) (down : Bool) : Option State :=
  if h : k < 16 then some { s with KEY := s.KEY.set k down h } else none

/-- `RD <- false` (R121). -/
def State.acknowledge (s : State) : State := { s with RD := false }

/-- Cell `c` of the framebuffer as the host numbers it: `y * 64 + x` holds `FB[x][y]` (R120, decision D10). -/
def Framebuffer.cell (fb : Framebuffer) (c : Nat) : Bool := fb.pixel (Fin.ofNat 64 (c % 64)) (Fin.ofNat 32 (c / 64))

/-- The 2048 cells, in order (R120). -/
def Framebuffer.cells (fb : Framebuffer) : List Bool := (List.range 2048).map fb.cell

/-- The operations of R116. -/
inductive HostOp where
  | reset
  | loadProgram (bytes : List Byte)
  | step (rnd : Byte)
  | tickTimers
  | setKeyDown (k : Nat)
  | setKeyUp (k : Nat)
  | readFramebuffer
  | acknowledgeRedraw
  | readSound
  deriving DecidableEq, Repr

/-- What an operation reports (R65, R116). -/
inductive HostReply where
  /-- Done, with nothing to report; `loadProgram`'s ok. -/
  | done
  /-- `step`: the instruction's effect was applied (R65). -/
  | executed
  /-- `step`: FX0A with no key pressed, nothing changed (R65). -/
  | waiting
  /-- `step` or `loadProgram`: an error kind of R107; or the operation has no meaning yet (R131). -/
  | error (f : Fault)
  /-- A key index above 15 (R119). -/
  | refused (r : Refusal)
  /-- The 2048 pixels and redrawPending (R120). -/
  | frame (cells : List Bool) (redraw : Bool)
  /-- The sound timer (R122). -/
  | sound (st : Byte)
  deriving DecidableEq, Repr

/-- `step` as the host sees it (R65): an error leaves the state as it was (R66). -/
def hostStep (rnd : Byte) (s : State) : HostReply × State :=
  match stepWith rnd s with
  | .next t => (if s.waits then .waiting else .executed, t)
  | .fault f => (.error f, s)
  | .refused r => (.refused r, s)

/-- `loadProgram` on a just-reset machine (R130): an oversized ROM leaves it just reset. -/
def hostLoad (bytes : List Byte) (s : State) : HostReply × State :=
  if romFits bytes then (.done, s.loadRom bytes) else (.error (.romTooLarge bytes.length), s)

/-- A key write, or its refusal (R119). -/
def hostSetKey (k : Nat) (down : Bool) (s : State) : HostReply × State :=
  match s.setKey k down with
  | some t => (.done, t)
  | none => (.refused (.hostKeyIndexOutOfRange k), s)

/-- An operation on a machine that has been reset (R116). -/
def performAfterReset (op : HostOp) (s : State) : HostReply × State :=
  match op with
  | .reset => (.done, s.resetAgain)
  | .loadProgram bytes => hostLoad bytes s.resetAgain
  | .step rnd => hostStep rnd s
  | .tickTimers => (.done, s.tickTimers)
  | .setKeyDown k => hostSetKey k true s
  | .setKeyUp k => hostSetKey k false s
  | .readFramebuffer => (.frame s.FB.cells s.RD, s)
  | .acknowledgeRedraw => (.done, s.acknowledge)
  | .readSound => (.sound s.ST, s)

/-- An operation before the first reset: only `reset` and `loadProgram` have a meaning (R131, R132, log 7). -/
def performBeforeReset (op : HostOp) : HostReply × Option State :=
  match op with
  | .reset => (.done, some State.reset)
  | .loadProgram bytes => ((hostLoad bytes State.reset).1, some (hostLoad bytes State.reset).2)
  | .step _ | .tickTimers | .setKeyDown _ | .setKeyUp _ | .readFramebuffer | .acknowledgeRedraw | .readSound =>
    (.error .beforeFirstReset, none)

/-- One host operation (R116), from power-on (`none`, R131) on. -/
def perform (op : HostOp) : Option State → HostReply × Option State
  | none => performBeforeReset op
  | some s => ((performAfterReset op s).1, some (performAfterReset op s).2)

/-- A sequence of host operations, one at a time (R123): the replies in order, and the state after the last. -/
def runHost : List HostOp → Option State → List HostReply × Option State
  | [], s => ([], s)
  | op :: ops, s => ((perform op s).1 :: (runHost ops (perform op s).2).1, (runHost ops (perform op s).2).2)

end Sys2Proof.Machine
end

