-- ==== Sys2Proof/Safety.lean ====
section
/-! DEFINITION. The terms claims are stated in: the frame of an instruction, the invariant of the machine, and the
quiescent conditions. -/

namespace Sys2Proof.Machine

/-! ### Frames: what stays as it was (spec/40_step_cycle.md R64) -/

/-- Every register but those listed keeps its value. -/
def SameRegsExcept (written : List RegIdx) (s t : State) : Prop := ∀ r : RegIdx, r ∉ written → t.reg r = s.reg r

/-- Every byte of memory reads as before. -/
def SameMemory (s t : State) : Prop := ∀ a : Nat, t.M.read a = s.M.read a

/-- Every byte of memory outside the `n` bytes from `a` on reads as before. -/
def SameMemoryOutside (a n : Nat) (s t : State) : Prop := ∀ k : Nat, ¬ (a ≤ k ∧ k < a + n) → t.M.read k = s.M.read k

/-- The stack pointer and every stack entry, the stale ones too, keep their values. -/
def SameStack (s t : State) : Prop := t.SP = s.SP ∧ ∀ k : Fin 16, t.S[k.val] = s.S[k.val]

/-- Every pixel and redrawPending keep their values. -/
def SameDisplay (s t : State) : Prop := (∀ x y, t.FB.pixel x y = s.FB.pixel x y) ∧ t.RD = s.RD

/-- Both timers keep their values. -/
def SameTimers (s t : State) : Prop := t.DT = s.DT ∧ t.ST = s.ST

/-- Every keypad latch keeps its value: no step changes one (R26, R64). -/
def SameKeys (s t : State) : Prop := ∀ k : Fin 16, t.KEY[k.val] = s.KEY[k.val]

/-- The frame of an instruction that writes only the listed registers and pc. -/
def OnlyRegsAndPc (written : List RegIdx) (s t : State) : Prop :=
  SameRegsExcept written s t ∧ t.I = s.I ∧ SameMemory s t ∧ SameStack s t ∧ SameDisplay s t ∧ SameTimers s t ∧
    SameKeys s t

/-- pc ends `n` past where it was, reduced with u16 (R18, R63). -/
def PcPlus (n : Nat) (s t : State) : Prop := t.pc.toNat = (s.pc.toNat + n) % 65536

/-! ### Which instruction may write what -/

/-- The classes of pc advancement (R63). -/
inductive PcClass where
  | sequential
  | jump
  | ret
  | skip
  | wait
  deriving DecidableEq, Repr

/-- The class of each instruction (R63). -/
def pcClass : Instr → PcClass
  | .jp _ | .call _ | .jpV0 _ => .jump
  | .ret => .ret
  | .seImm _ _ | .sneImm _ _ | .seReg _ _ | .sneReg _ _ | .skp _ | .sknp _ => .skip
  | .ldVxK _ => .wait
  | .cls | .ldImm _ _ | .addImm _ _ | .ldReg _ _ | .or _ _ | .and _ _ | .xor _ _ | .addReg _ _ | .sub _ _ => .sequential
  | .shr _ _ | .subn _ _ | .shl _ _ | .ldI _ | .rnd _ _ | .drw _ _ _ | .ldVxDt _ | .ldDtVx _ | .ldStVx _ => .sequential
  | .addIVx _ | .ldFVx _ | .ldBVx _ | .ldMemVx _ | .ldVxMem _ => .sequential

/-- The registers an instruction writes (R17): Vx, V0..Vx, VF as a flag. -/
def writesReg (i : Instr) (r : RegIdx) : Bool :=
  match i with
  | .ldImm x _ | .addImm x _ | .ldReg x _ | .or x _ | .and x _ | .xor x _ | .rnd x _ | .ldVxDt x | .ldVxK x => r == x
  | .addReg x _ | .sub x _ | .shr x _ | .subn x _ | .shl x _ => r == x || r == VF
  | .addIVx _ | .drw _ _ _ => r == VF
  | .ldVxMem x => decide (r.toNat ≤ x.toNat)
  | .cls | .ret | .jp _ | .call _ | .seImm _ _ | .sneImm _ _ | .seReg _ _ | .sneReg _ _ | .ldI _ | .jpV0 _ => false
  | .skp _ | .sknp _ | .ldDtVx _ | .ldStVx _ | .ldFVx _ | .ldBVx _ | .ldMemVx _ => false

/-- The own error an instruction can raise once it is decoded (R108). -/
def OwnError (i : Instr) (s : State) (f : Fault) : Prop :=
  match i with
  | .ret => f = .callStackUnderflow s.pc
  | .call _ => f = .callStackOverflow s.pc
  | .drw _ _ _ | .ldBVx _ | .ldMemVx _ | .ldVxMem _ => f = .memoryAddressOutOfRange s.pc (max s.I.toNat 0x1000)
  | .skp x | .sknp x => f = .keyIndexOutOfRange s.pc (s.reg x)
  | .cls | .jp _ | .seImm _ _ | .sneImm _ _ | .seReg _ _ | .ldImm _ _ | .addImm _ _ | .ldReg _ _ | .or _ _ | .and _ _
  | .xor _ _ | .addReg _ _ | .sub _ _ | .shr _ _ | .subn _ _ | .shl _ _ | .sneReg _ _ | .ldI _ | .jpV0 _ | .rnd _ _
  | .ldVxDt _ | .ldVxK _ | .ldDtVx _ | .ldStVx _ | .addIVx _ | .ldFVx _ => False

/-! ### The invariant -/

/-- pc stays where the rules of R63 can put it: at most 0x10FE, the largest target of BNNN (R18, R74). -/
def PcInv (s : State) : Prop := s.pc.toNat ≤ 0x10FE

/-- Every live stack entry is the address of a call that was fetched, so at most 0xFFE (R61, R73). -/
def StackInv (s : State) : Prop := ∀ k : Fin 16, k.val < s.SP.val → s.S[k.val].toNat ≤ 0xFFE

/-- The invariant: memory in its canonical form, which is the model's own and no rule of the spec (log 20, DESIGN CHOICE; only
that no address lies above 4095 comes from R39), and pc and the stack as above. -/
def Inv (s : State) : Prop := s.M.wf = true ∧ PcInv s ∧ StackInv s

/-! ### Errors and quiescence -/

/-- The next step reports an error (R65). -/
def Errs (s : State) : Prop := ∃ f, step s = .fault f

/-- The word at pc is a jump to itself (R128). -/
def SelfLoop (s : State) : Prop := ∃ nnn : Addr12, s.fetchInstr = .ok (.jp nnn) ∧ target nnn = s.pc

/-- The three quiescent conditions a run can be said to end in (R128). -/
def Quiescent (s : State) : Prop := Errs s ∨ SelfLoop s ∨ s.waits = true

/-- The instructions that produce a flag (R16). -/
def producesFlag : Instr → Bool
  | .addReg _ _ | .sub _ _ | .shr _ _ | .subn _ _ | .shl _ _ | .addIVx _ | .drw _ _ _ => true
  | .cls | .ret | .jp _ | .call _ | .seImm _ _ | .sneImm _ _ | .seReg _ _ | .ldImm _ _ | .addImm _ _ | .ldReg _ _ => false
  | .or _ _ | .and _ _ | .xor _ _ | .sneReg _ _ | .ldI _ | .jpV0 _ | .rnd _ _ | .skp _ | .sknp _ => false
  | .ldVxDt _ | .ldVxK _ | .ldDtVx _ | .ldStVx _ | .ldFVx _ | .ldBVx _ | .ldMemVx _ | .ldVxMem _ => false

end Sys2Proof.Machine
end

