-- ==== Sys2Proof/Certificates/Slice0/Obligations.lean ====
section
/-! DEFINITION. The statements for the provers, from the numbered rules of spec/. A result statement gives the instruction
its word (spec/30_encoding.md R52), says that it completes and with what, and gives its frame (spec/40_step_cycle.md R64).
Arithmetic is stated on natural numbers, as the spec writes it (R9). In the host's three constructors an error of R65 is
`.fault` (log 4) and its Waiting is `.next` with the state unchanged (log 5); hostStep tells all three apart. -/

open Sys2Proof Sys2Proof.Machine

/-! ### Encoding -/

/-- R50 to R53: decoding the word of an instruction gives the instruction back, with every operand at every value. -/
def Obligations.DecodeOfEncode : Prop := ∀ i : Instr, decode (encode i) = .ok i

/-- R52, R53: each legal word has one meaning, and the encoder gives the word back. -/
def Obligations.EncodeOfDecode : Prop := ∀ (w : Word) (i : Instr), decode w = .ok i → encode i = w

/-- R52, R53: the decoder's dispatch and the opcode map of masks and matches agree on every word: a word that matches a row
decodes to an instruction of that row, and a word that matches none is refused by name. -/
def Obligations.DecoderAgreesWithOpcodeMap : Prop :=
  ∀ w : Word,
    (∀ r ∈ opcodeTable, r.accepts w = true → ∃ i, decode w = .ok i ∧ i.row = some r) ∧
      ((∀ r ∈ opcodeTable, r.accepts w = false) → decode w = .error (.unimplementedOpcode w))

/-- R52: no word matches two rows. -/
def Obligations.OpcodeRowsDisjoint : Prop :=
  ∀ (w : Word) (r r' : OpcodeRow), r ∈ opcodeTable → r' ∈ opcodeTable → r.accepts w = true → r'.accepts w = true → r = r'

/-- R58: the illegal words are exactly those listed there, and a step that fetches one raises UnimplementedOpcode. -/
def Obligations.IllegalWordsRaise : Prop :=
  ∀ w : Word,
    (legalWord w = false ↔
      (fieldG w = 0x0#4 ∧ w ≠ 0x00E0#16 ∧ w ≠ 0x00EE#16) ∨
        ((fieldG w = 0x5#4 ∨ fieldG w = 0x9#4) ∧ fieldN w ≠ 0x0#4) ∨
        (fieldG w = 0x8#4 ∧ fieldN w ∈ [0x8#4, 0x9#4, 0xA#4, 0xB#4, 0xC#4, 0xD#4, 0xF#4]) ∨
        (fieldG w = 0xE#4 ∧ fieldNN w ∉ [0x9E#8, 0xA1#8]) ∨
        (fieldG w = 0xF#4 ∧
          fieldNN w ∉ [0x07#8, 0x0A#8, 0x15#8, 0x18#8, 0x1E#8, 0x29#8, 0x33#8, 0x55#8, 0x65#8])) ∧
      ∀ s : State, s.fetch = .ok w → legalWord w = false →
        step s = .fault (.unimplementedOpcode s.pc w) ∧
          ∀ r : Byte, hostStep r s = (.error (.unimplementedOpcode s.pc w), s)

/-- R52: one word of each family, its bits written out from the table. -/
def Obligations.SpecWordsDecode : Prop :=
  decode 0b0000000011101110#16 = .ok .ret ∧
    decode 0b0010001100000000#16 = .ok (.call 0x300#12) ∧
    decode 0b1000000100100101#16 = .ok (.sub 0x1#4 0x2#4) ∧
    decode 0b1010001011110000#16 = .ok (.ldI 0x2F0#12) ∧
    decode 0b1101111100000001#16 = .ok (.drw 0xF#4 0x0#4 0x1#4) ∧
    decode 0b1110010110100001#16 = .ok (.sknp 0x5#4) ∧
    decode 0b1111001001100101#16 = .ok (.ldVxMem 0x2#4) ∧
    decode 0b1000000100101000#16 = .error (.unimplementedOpcode 0x8128#16)

/-! ### The step -/

/-- R61, R62, R35: when the big-endian word at pc decodes to an instruction, the step is that instruction's meaning at that
state, with nothing around it. -/
def Obligations.StepRunsDecodedInstruction : Prop :=
  ∀ (s : State) (i : Instr), s.pc.toNat ≤ 4094 →
    decode (u16 ((s.M.read s.pc.toNat).toNat * 256 + (s.M.read (s.pc.toNat + 1)).toNat)) = .ok i → step s = exec i s

/-- R61, R110, R107: a fetch above 4094 is reported before anything else, with the address pc; then an illegal word. -/
def Obligations.FetchErrorsComeFirst : Prop :=
  ∀ s : State,
    (4094 < s.pc.toNat → step s = .fault (.memoryAddressOutOfRange s.pc s.pc.toNat)) ∧
      ∀ w w' : Word, s.pc.toNat ≤ 4094 →
        w = u16 ((s.M.read s.pc.toNat).toNat * 256 + (s.M.read (s.pc.toNat + 1)).toNat) →
        decode w = .error (.unimplementedOpcode w') → w' = w ∧ step s = .fault (.unimplementedOpcode s.pc w)

/-! ### Control flow -/

/-- R71: 00EE pops the address of the call and goes 2 past it; on an empty stack it raises CallStackUnderflow. -/
def Obligations.RetResult : Prop :=
  decode 0x00EE#16 = .ok .ret ∧ ∀ s : State,
    (s.SP.val = 0 → exec .ret s = .fault (.callStackUnderflow s.pc)) ∧
      ∀ k : Fin 16, s.SP.val = k.val + 1 → ∃ t, exec .ret s = .next t ∧
        t.SP.val = k.val ∧ t.pc.toNat = (s.S[k.val].toNat + 2) % 65536 ∧ (∀ j : Fin 16, t.S[j.val] = s.S[j.val]) ∧
        SameRegsExcept [] s t ∧ t.I = s.I ∧ SameMemory s t ∧ SameDisplay s t ∧ SameTimers s t ∧ SameKeys s t

/-- R72: 1NNN sets pc to NNN and changes nothing else; a jump to itself changes nothing at all. -/
def Obligations.JpResult : Prop :=
  ∀ (nnn : Addr12) (s : State), decode (0x1#4 ++ nnn) = .ok (.jp nnn) ∧
    ∃ t, exec (.jp nnn) s = .next t ∧ t.pc.toNat = nnn.toNat ∧ OnlyRegsAndPc [] s t ∧
      (s.pc.toNat = nnn.toNat → t = s)

/-- R73: 2NNN pushes its own address and goes to NNN; on a full stack it raises CallStackOverflow. -/
def Obligations.CallResult : Prop :=
  ∀ (nnn : Addr12) (s : State), decode (0x2#4 ++ nnn) = .ok (.call nnn) ∧
    (s.SP.val = 16 → exec (.call nnn) s = .fault (.callStackOverflow s.pc)) ∧
    ∀ k : Fin 16, s.SP.val = k.val → ∃ t, exec (.call nnn) s = .next t ∧
      t.S[k.val] = s.pc ∧ t.SP.val = k.val + 1 ∧ t.pc.toNat = nnn.toNat ∧
      (∀ j : Fin 16, j ≠ k → t.S[j.val] = s.S[j.val]) ∧
      SameRegsExcept [] s t ∧ t.I = s.I ∧ SameMemory s t ∧ SameDisplay s t ∧ SameTimers s t ∧ SameKeys s t

/-- R74: BNNN goes to NNN + V0, not reduced to 12 bits; the offset register is V0 whatever NNN is. -/
def Obligations.JpV0Result : Prop :=
  ∀ (nnn : Addr12) (s : State), decode (0xB#4 ++ nnn) = .ok (.jpV0 nnn) ∧
    ∃ t, exec (.jpV0 nnn) s = .next t ∧ t.pc.toNat = nnn.toNat + (s.reg 0x0#4).toNat ∧ OnlyRegsAndPc [] s t

/-- R75, R76: 3XNN skips when Vx = NN, 4XNN when Vx differs from it. -/
def Obligations.SkipImmediateResult : Prop :=
  ∀ (x : RegIdx) (nn : Byte) (s : State),
    (decode (0x3#4 ++ x ++ nn) = .ok (.seImm x nn) ∧ ∃ t, exec (.seImm x nn) s = .next t ∧
      PcPlus (if s.reg x = nn then 4 else 2) s t ∧ OnlyRegsAndPc [] s t) ∧
    (decode (0x4#4 ++ x ++ nn) = .ok (.sneImm x nn) ∧ ∃ t, exec (.sneImm x nn) s = .next t ∧
      PcPlus (if s.reg x = nn then 2 else 4) s t ∧ OnlyRegsAndPc [] s t)

/-- R77, R78: 5XY0 skips when Vx = Vy, so always for X = Y; 9XY0 when they differ, so never for X = Y. -/
def Obligations.SkipRegisterResult : Prop :=
  ∀ (x y : RegIdx) (s : State),
    (decode (0x5#4 ++ x ++ y ++ 0x0#4) = .ok (.seReg x y) ∧ ∃ t, exec (.seReg x y) s = .next t ∧
      PcPlus (if s.reg x = s.reg y then 4 else 2) s t ∧ OnlyRegsAndPc [] s t) ∧
    (decode (0x9#4 ++ x ++ y ++ 0x0#4) = .ok (.sneReg x y) ∧ ∃ t, exec (.sneReg x y) s = .next t ∧
      PcPlus (if s.reg x = s.reg y then 2 else 4) s t ∧ OnlyRegsAndPc [] s t)

/-- R71, R73 (example E8): from every state with room on the stack, a call and then a return complete and resume after the
call, with SP and the live stack entries as before. -/
def Obligations.ReturnResumesAfterCall : Prop :=
  ∀ (nnn : Addr12) (s : State), s.SP.val < 16 →
    ∃ t u, exec (.call nnn) s = .next t ∧ exec .ret t = .next u ∧ PcPlus 2 s u ∧ u.SP = s.SP ∧
      (∀ k : Fin 16, k.val < s.SP.val → u.S[k.val] = s.S[k.val]) ∧
      SameRegsExcept [] s u ∧ u.I = s.I ∧ SameMemory s u ∧ SameDisplay s u ∧ SameTimers s u ∧ SameKeys s u

/-! ### Loads and arithmetic -/

/-- R79, R80: 6XNN loads NN; 7XNN adds it modulo 256, with no flag: only Vx and pc change. -/
def Obligations.ImmediateResult : Prop :=
  ∀ (x : RegIdx) (nn : Byte) (s : State),
    (decode (0x6#4 ++ x ++ nn) = .ok (.ldImm x nn) ∧ ∃ t, exec (.ldImm x nn) s = .next t ∧
      t.reg x = nn ∧ PcPlus 2 s t ∧ OnlyRegsAndPc [x] s t) ∧
    (decode (0x7#4 ++ x ++ nn) = .ok (.addImm x nn) ∧ ∃ t, exec (.addImm x nn) s = .next t ∧
      (t.reg x).toNat = ((s.reg x).toNat + nn.toNat) % 256 ∧ PcPlus 2 s t ∧ OnlyRegsAndPc [x] s t)

/-- R81 to R84: 8XY0 copies Vy, 8XY1 to 8XY3 combine Vx and Vy bit by bit; VF is written only when it is Vx. -/
def Obligations.CopyAndLogicResult : Prop :=
  ∀ (x y : RegIdx) (s : State),
    (decode (0x8#4 ++ x ++ y ++ 0x0#4) = .ok (.ldReg x y) ∧ ∃ t, exec (.ldReg x y) s = .next t ∧
      t.reg x = s.reg y ∧ PcPlus 2 s t ∧ OnlyRegsAndPc [x] s t) ∧
    (decode (0x8#4 ++ x ++ y ++ 0x1#4) = .ok (.or x y) ∧ ∃ t, exec (.or x y) s = .next t ∧
      (∀ k, (t.reg x).getLsbD k = ((s.reg x).getLsbD k || (s.reg y).getLsbD k)) ∧ PcPlus 2 s t ∧
      OnlyRegsAndPc [x] s t) ∧
    (decode (0x8#4 ++ x ++ y ++ 0x2#4) = .ok (.and x y) ∧ ∃ t, exec (.and x y) s = .next t ∧
      (∀ k, (t.reg x).getLsbD k = ((s.reg x).getLsbD k && (s.reg y).getLsbD k)) ∧ PcPlus 2 s t ∧
      OnlyRegsAndPc [x] s t) ∧
    (decode (0x8#4 ++ x ++ y ++ 0x3#4) = .ok (.xor x y) ∧ ∃ t, exec (.xor x y) s = .next t ∧
      (∀ k, (t.reg x).getLsbD k = ((s.reg x).getLsbD k ^^ (s.reg y).getLsbD k)) ∧ PcPlus 2 s t ∧
      OnlyRegsAndPc [x] s t)

/-- R85: 8XY4 leaves the sum modulo 256 in Vx and the carry in VF, the carry last, so VF holds it for X = F too. -/
def Obligations.AddRegisterResult : Prop :=
  ∀ (x y : RegIdx) (s : State), decode (0x8#4 ++ x ++ y ++ 0x4#4) = .ok (.addReg x y) ∧
    ∃ t, exec (.addReg x y) s = .next t ∧
      (x ≠ VF → (t.reg x).toNat = ((s.reg x).toNat + (s.reg y).toNat) % 256) ∧
      (t.reg VF).toNat = (if (s.reg x).toNat + (s.reg y).toNat > 255 then 1 else 0) ∧
      PcPlus 2 s t ∧ OnlyRegsAndPc [x, VF] s t

/-- R86: 8XY5 leaves Vx - Vy modulo 256 in Vx and NOT borrow in VF, which equal operands set. -/
def Obligations.SubtractResult : Prop :=
  ∀ (x y : RegIdx) (s : State), decode (0x8#4 ++ x ++ y ++ 0x5#4) = .ok (.sub x y) ∧
    ∃ t, exec (.sub x y) s = .next t ∧
      (x ≠ VF → (t.reg x).toNat = ((s.reg x).toNat + 256 - (s.reg y).toNat) % 256) ∧
      (t.reg VF).toNat = (if (s.reg y).toNat > (s.reg x).toNat then 0 else 1) ∧
      PcPlus 2 s t ∧ OnlyRegsAndPc [x, VF] s t

/-- R88: 8XY7 leaves Vy - Vx modulo 256 in Vx and NOT borrow in VF. -/
def Obligations.ReverseSubtractResult : Prop :=
  ∀ (x y : RegIdx) (s : State), decode (0x8#4 ++ x ++ y ++ 0x7#4) = .ok (.subn x y) ∧
    ∃ t, exec (.subn x y) s = .next t ∧
      (x ≠ VF → (t.reg x).toNat = ((s.reg y).toNat + 256 - (s.reg x).toNat) % 256) ∧
      (t.reg VF).toNat = (if (s.reg x).toNat > (s.reg y).toNat then 0 else 1) ∧
      PcPlus 2 s t ∧ OnlyRegsAndPc [x, VF] s t

/-- R87, R89: 8XY6 and 8XYE shift Vx by one bit, whatever Y is, and leave the bit shifted out in VF. -/
def Obligations.ShiftResult : Prop :=
  ∀ (x y : RegIdx) (s : State),
    (decode (0x8#4 ++ x ++ y ++ 0x6#4) = .ok (.shr x y) ∧ ∃ t, exec (.shr x y) s = .next t ∧
      (x ≠ VF → t.reg x = s.reg x >>> 1) ∧ (t.reg VF).toNat = (if (s.reg x).getLsbD 0 then 1 else 0) ∧
      PcPlus 2 s t ∧ OnlyRegsAndPc [x, VF] s t) ∧
    (decode (0x8#4 ++ x ++ y ++ 0xE#4) = .ok (.shl x y) ∧ ∃ t, exec (.shl x y) s = .next t ∧
      (x ≠ VF → t.reg x = s.reg x <<< 1) ∧ (t.reg VF).toNat = (if (s.reg x).getLsbD 7 then 1 else 0) ∧
      PcPlus 2 s t ∧ OnlyRegsAndPc [x, VF] s t)

/-- R90: CXNN leaves the random byte under the mask NN in Vx. The byte is the free value of log 1, and the second half says
the same of every byte it could be; whatever it is, the bits NN masks off are 0. -/
def Obligations.RandomResult : Prop :=
  ∀ (x : RegIdx) (nn : Byte) (s : State), decode (0xC#4 ++ x ++ nn) = .ok (.rnd x nn) ∧
    (∃ t, exec (.rnd x nn) s = .next t ∧ t.reg x = Config.randomByte s.draws &&& nn ∧
      (∀ k, nn.getLsbD k = false → (t.reg x).getLsbD k = false) ∧ PcPlus 2 s t ∧ OnlyRegsAndPc [x] s t) ∧
    ∀ r : Byte, ∃ t, rndWith r x nn s = .next t ∧ t.reg x = r &&& nn ∧
      (∀ k, nn.getLsbD k = false → (t.reg x).getLsbD k = false) ∧ PcPlus 2 s t ∧ OnlyRegsAndPc [x] s t

/-- R16, R68: after every flag-producing instruction that goes on, VF holds a flag, 0 or 1, even when X = F. -/
def Obligations.FlagProducersLeaveFlag : Prop :=
  ∀ (i : Instr) (s t : State), producesFlag i = true → exec i s = .next t → t.reg VF = 0 ∨ t.reg VF = 1

/-! ### Index register and memory -/

/-- R91, R93: ANNN sets I to NNN, FX29 to Vx * 5 with Vx not masked. -/
def Obligations.LoadIndexResult : Prop :=
  (∀ (nnn : Addr12) (s : State), decode (0xA#4 ++ nnn) = .ok (.ldI nnn) ∧ ∃ t, exec (.ldI nnn) s = .next t ∧
    t.I.toNat = nnn.toNat ∧ PcPlus 2 s t ∧
    SameRegsExcept [] s t ∧ SameMemory s t ∧ SameStack s t ∧ SameDisplay s t ∧ SameTimers s t ∧ SameKeys s t) ∧
  (∀ (x : RegIdx) (s : State), decode (0xF#4 ++ x ++ 0x29#8) = .ok (.ldFVx x) ∧ ∃ t, exec (.ldFVx x) s = .next t ∧
    t.I.toNat = (s.reg x).toNat * 5 ∧ PcPlus 2 s t ∧
    SameRegsExcept [] s t ∧ SameMemory s t ∧ SameStack s t ∧ SameDisplay s t ∧ SameTimers s t ∧ SameKeys s t)

/-- R92: FX1E adds Vx to I modulo 65536, and VF says whether the unreduced sum leaves the 12-bit range. -/
def Obligations.AddIndexResult : Prop :=
  ∀ (x : RegIdx) (s : State), decode (0xF#4 ++ x ++ 0x1E#8) = .ok (.addIVx x) ∧ ∃ t, exec (.addIVx x) s = .next t ∧
    t.I.toNat = (s.I.toNat + (s.reg x).toNat) % 65536 ∧
    (t.reg VF).toNat = (if s.I.toNat + (s.reg x).toNat > 0xFFF then 1 else 0) ∧ PcPlus 2 s t ∧
    SameRegsExcept [VF] s t ∧ SameMemory s t ∧ SameStack s t ∧ SameDisplay s t ∧ SameTimers s t ∧ SameKeys s t

/-- R94: FX33 stores the three decimal digits of Vx at I, I + 1, I + 2, or raises MemoryAddressOutOfRange. -/
def Obligations.DecimalStoreResult : Prop :=
  ∀ (x : RegIdx) (s : State), decode (0xF#4 ++ x ++ 0x33#8) = .ok (.ldBVx x) ∧
    (0xFFF < s.I.toNat + 2 →
      exec (.ldBVx x) s = .fault (.memoryAddressOutOfRange s.pc (max s.I.toNat 0x1000))) ∧
    (s.I.toNat + 2 ≤ 0xFFF → ∃ t, exec (.ldBVx x) s = .next t ∧
      (t.M.read s.I.toNat).toNat = (s.reg x).toNat / 100 ∧
      (t.M.read (s.I.toNat + 1)).toNat = (s.reg x).toNat / 10 % 10 ∧
      (t.M.read (s.I.toNat + 2)).toNat = (s.reg x).toNat % 10 ∧
      SameMemoryOutside s.I.toNat 3 s t ∧ t.I = s.I ∧ PcPlus 2 s t ∧
      SameRegsExcept [] s t ∧ SameStack s t ∧ SameDisplay s t ∧ SameTimers s t ∧ SameKeys s t)

/-- R95: FX55 stores V0..Vx at I..I + X, or raises MemoryAddressOutOfRange; I is unchanged. -/
def Obligations.RegisterStoreResult : Prop :=
  ∀ (x : RegIdx) (s : State), decode (0xF#4 ++ x ++ 0x55#8) = .ok (.ldMemVx x) ∧
    (0xFFF < s.I.toNat + x.toNat →
      exec (.ldMemVx x) s = .fault (.memoryAddressOutOfRange s.pc (max s.I.toNat 0x1000))) ∧
    (s.I.toNat + x.toNat ≤ 0xFFF → ∃ t, exec (.ldMemVx x) s = .next t ∧
      (∀ k : RegIdx, k.toNat ≤ x.toNat → t.M.read (s.I.toNat + k.toNat) = s.reg k) ∧
      SameMemoryOutside s.I.toNat (x.toNat + 1) s t ∧ t.I = s.I ∧ PcPlus 2 s t ∧
      SameRegsExcept [] s t ∧ SameStack s t ∧ SameDisplay s t ∧ SameTimers s t ∧ SameKeys s t)

/-- R96: FX65 loads V0..Vx from I..I + X, or raises MemoryAddressOutOfRange; I is unchanged. -/
def Obligations.RegisterLoadResult : Prop :=
  ∀ (x : RegIdx) (s : State), decode (0xF#4 ++ x ++ 0x65#8) = .ok (.ldVxMem x) ∧
    (0xFFF < s.I.toNat + x.toNat →
      exec (.ldVxMem x) s = .fault (.memoryAddressOutOfRange s.pc (max s.I.toNat 0x1000))) ∧
    (s.I.toNat + x.toNat ≤ 0xFFF → ∃ t, exec (.ldVxMem x) s = .next t ∧
      (∀ k : RegIdx, k.toNat ≤ x.toNat → t.reg k = s.M.read (s.I.toNat + k.toNat)) ∧
      (∀ k : RegIdx, x.toNat < k.toNat → t.reg k = s.reg k) ∧ t.I = s.I ∧ PcPlus 2 s t ∧
      SameMemory s t ∧ SameStack s t ∧ SameDisplay s t ∧ SameTimers s t ∧ SameKeys s t)

/-- R95, R96: what FX55 stores, FX65 with the same X and I loads back, whatever the registers hold by then. -/
def Obligations.StoreThenLoadRestoresRegisters : Prop :=
  ∀ (x : RegIdx) (s u : State), s.I.toNat + x.toNat ≤ 0xFFF →
    ∃ t, exec (.ldMemVx x) s = .next t ∧
      (u.M = t.M → u.I = s.I →
        ∃ w, exec (.ldVxMem x) u = .next w ∧ ∀ k : RegIdx, k.toNat ≤ x.toNat → w.reg k = s.reg k)

/-- R37, R46: code is data: a fetch where FX55 stored V0 and V1 reads the word with V0 as its high byte. -/
def Obligations.StoredBytesAreFetched : Prop :=
  ∀ (x : RegIdx) (s : State), 1 ≤ x.toNat → s.I.toNat + x.toNat ≤ 0xFFF →
    ∃ t, exec (.ldMemVx x) s = .next t ∧
      (t.setPc s.I).fetch = .ok (u16 ((s.reg 0x0#4).toNat * 256 + (s.reg 0x1#4).toNat))

/-! ### Display -/

/-- R99: 00E0 turns every pixel off and sets redrawPending, whatever the screen showed. -/
def Obligations.ClearScreenResult : Prop :=
  decode 0x00E0#16 = .ok .cls ∧ ∀ s : State, ∃ t, exec .cls s = .next t ∧
    (∀ x y, t.FB.pixel x y = false) ∧ t.RD = true ∧ PcPlus 2 s t ∧
    SameRegsExcept [] s t ∧ t.I = s.I ∧ SameMemory s t ∧ SameStack s t ∧ SameTimers s t ∧ SameKeys s t

/-- R97, R98, R100: a DXYN whose sprite lies in memory inverts exactly the pixels its set bits land on, each sprite pixel
wrapped on its own, sets VF to whether one of them was on, and sets redrawPending; otherwise it raises
MemoryAddressOutOfRange. N = 0 reads nothing and always completes. Wrap and bit order are the spec's own decisions D8 and
D9 (log 12), which these rules state. -/
def Obligations.DrawResult : Prop :=
  ∀ (x y : RegIdx) (n : Nibble) (s : State), decode (0xD#4 ++ x ++ y ++ n) = .ok (.drw x y n) ∧
    (0 < n.toNat → 0xFFF < s.I.toNat + n.toNat - 1 →
      exec (.drw x y n) s = .fault (.memoryAddressOutOfRange s.pc (max s.I.toNat 0x1000))) ∧
    (n.toNat = 0 ∨ s.I.toNat + n.toNat - 1 ≤ 0xFFF → ∃ t, exec (.drw x y n) s = .next t ∧
      (∀ col r : Nat, col < 8 → r < n.toNat →
        t.FB.pixel (Fin.ofNat 64 ((s.reg x).toNat + col)) (Fin.ofNat 32 ((s.reg y).toNat + r)) =
          (s.FB.pixel (Fin.ofNat 64 ((s.reg x).toNat + col)) (Fin.ofNat 32 ((s.reg y).toNat + r)) ^^
            (s.M.read (s.I.toNat + r)).getLsbD (7 - col))) ∧
      (∀ (px : Fin 64) (py : Fin 32),
        (∀ col r : Nat, col < 8 → r < n.toNat →
          ¬ (px.val = ((s.reg x).toNat + col) % 64 ∧ py.val = ((s.reg y).toNat + r) % 32)) →
        t.FB.pixel px py = s.FB.pixel px py) ∧
      (t.reg VF = 1 ↔ ∃ (px : Fin 64) (py : Fin 32), s.FB.pixel px py = true ∧ t.FB.pixel px py = false) ∧
      (t.reg VF = 0 ∨ t.reg VF = 1) ∧ t.RD = true ∧ PcPlus 2 s t ∧
      SameRegsExcept [VF] s t ∧ t.I = s.I ∧ SameMemory s t ∧ SameStack s t ∧ SameTimers s t ∧ SameKeys s t)

/-- R100 (example E5): the same sprite at the same place twice restores the framebuffer, and the second draw reports a
collision exactly when the first turned some pixel on. -/
def Obligations.DrawTwiceRestoresScreen : Prop :=
  ∀ (x y : RegIdx) (n : Nibble) (s t u v : State), exec (.drw x y n) s = .next t →
    u.FB = t.FB → u.M = s.M → u.I = s.I → u.reg x = s.reg x → u.reg y = s.reg y →
    exec (.drw x y n) u = .next v →
    v.FB = s.FB ∧
      (v.reg VF = 1 ↔ ∃ (px : Fin 64) (py : Fin 32), s.FB.pixel px py = false ∧ t.FB.pixel px py = true)

/-! ### Keypad and timers -/

/-- R101, R102: EX9E skips when the key Vx names is pressed, EXA1 when it is not; an index above 15 raises
KeyIndexOutOfRange (the spec's decision D12). -/
def Obligations.SkipKeyResult : Prop :=
  ∀ (x : RegIdx) (s : State),
    decode (0xE#4 ++ x ++ 0x9E#8) = .ok (.skp x) ∧ decode (0xE#4 ++ x ++ 0xA1#8) = .ok (.sknp x) ∧
    (15 < (s.reg x).toNat →
      exec (.skp x) s = .fault (.keyIndexOutOfRange s.pc (s.reg x)) ∧
        exec (.sknp x) s = .fault (.keyIndexOutOfRange s.pc (s.reg x))) ∧
    ∀ k : Fin 16, (s.reg x).toNat = k.val →
      (∃ t, exec (.skp x) s = .next t ∧ PcPlus (if s.KEY[k.val] then 4 else 2) s t ∧ OnlyRegsAndPc [] s t) ∧
        ∃ t, exec (.sknp x) s = .next t ∧ PcPlus (if s.KEY[k.val] then 2 else 4) s t ∧ OnlyRegsAndPc [] s t

/-- R103, R105, R106: FX07 reads the delay timer, FX15 sets it, FX18 sets the sound timer. -/
def Obligations.TimerTransferResult : Prop :=
  ∀ (x : RegIdx) (s : State),
    (decode (0xF#4 ++ x ++ 0x07#8) = .ok (.ldVxDt x) ∧ ∃ t, exec (.ldVxDt x) s = .next t ∧
      t.reg x = s.DT ∧ PcPlus 2 s t ∧ OnlyRegsAndPc [x] s t) ∧
    (decode (0xF#4 ++ x ++ 0x15#8) = .ok (.ldDtVx x) ∧ ∃ t, exec (.ldDtVx x) s = .next t ∧
      t.DT = s.reg x ∧ t.ST = s.ST ∧ PcPlus 2 s t ∧
      SameRegsExcept [] s t ∧ t.I = s.I ∧ SameMemory s t ∧ SameStack s t ∧ SameDisplay s t ∧ SameKeys s t) ∧
    (decode (0xF#4 ++ x ++ 0x18#8) = .ok (.ldStVx x) ∧ ∃ t, exec (.ldStVx x) s = .next t ∧
      t.ST = s.reg x ∧ t.DT = s.DT ∧ PcPlus 2 s t ∧
      SameRegsExcept [] s t ∧ t.I = s.I ∧ SameMemory s t ∧ SameStack s t ∧ SameDisplay s t ∧ SameKeys s t)

/-- R104: with a key pressed FX0A completes with the lowest one in Vx; with none it changes nothing, pc included, and the
host sees Waiting (log 5). -/
def Obligations.WaitForKeyResult : Prop :=
  ∀ (x : RegIdx) (s : State), decode (0xF#4 ++ x ++ 0x0A#8) = .ok (.ldVxK x) ∧
    ((∀ k : Fin 16, s.KEY[k.val] = false) → exec (.ldVxK x) s = .next s ∧
      (s.fetchInstr = .ok (.ldVxK x) → ∀ r, hostStep r s = (.waiting, s))) ∧
    ∀ k : Fin 16, s.KEY[k.val] = true → (∀ j : Fin 16, j < k → s.KEY[j.val] = false) →
      ∃ t, exec (.ldVxK x) s = .next t ∧ (t.reg x).toNat = k.val ∧ PcPlus 2 s t ∧ OnlyRegsAndPc [x] s t

/-! ### The whole machine -/

/-- Every step from a state with the invariant keeps it: pc at most 0x10FE (R18, R74), every live stack entry at most 0xFFE
(R61, R73), and memory in its canonical form. That form is the model's own, log 20 (DESIGN CHOICE), and no rule of the spec;
only its part that no address lies above 4095 comes from R39. -/
def Obligations.StepKeepsInv : Prop := ∀ s t : State, Inv s → step s = .next t → Inv t

/-- The invariant holds right after reset: R32 gives pc and the empty stack; that the memory listed is in canonical form is the
model's own, log 20 (DESIGN CHOICE), and not R32's. -/
def Obligations.ResetHasInv : Prop := Inv State.reset

/-- R69, R116, R117, R119, R129, R130: the invariant holds after every sequence of host operations from power-on on,
whatever the random bytes, the ROMs, the keys and the interleaving. Its clause on the canonical form of memory is the model's
own, log 20 (DESIGN CHOICE). -/
def Obligations.EveryHostRunHasInv : Prop :=
  ∀ (ops : List HostOp) (t : State), (runHost ops none).2 = some t → Inv t

/-- R63: where pc goes, by the class of the instruction. -/
def Obligations.PcAdvancesByClass : Prop :=
  ∀ (i : Instr) (s t : State), exec i s = .next t →
    (pcClass i = .sequential → PcPlus 2 s t) ∧
    (pcClass i = .jump → (∃ nnn : Addr12, (i = .jp nnn ∨ i = .call nnn) ∧ t.pc.toNat = nnn.toNat) ∨
      ∃ nnn : Addr12, i = .jpV0 nnn ∧ t.pc.toNat = nnn.toNat + (s.reg 0x0#4).toNat) ∧
    (pcClass i = .ret → ∃ k : Fin 16, s.SP.val = k.val + 1 ∧ t.pc.toNat = (s.S[k.val].toNat + 2) % 65536) ∧
    (pcClass i = .skip → PcPlus 2 s t ∨ PcPlus 4 s t) ∧
    (pcClass i = .wait → if ∀ k : Fin 16, s.KEY[k.val] = false then t = s else PcPlus 2 s t)

/-- R17, R64: an instruction that goes on changes only the registers its rule writes. -/
def Obligations.OnlyWrittenRegistersChange : Prop :=
  ∀ (i : Instr) (s t : State), exec i s = .next t → ∀ r : RegIdx, writesReg i r = false → t.reg r = s.reg r

/-- R20, R21, R23 to R27, R64, R70: each piece of state changes only by the instructions that write it: the latches by none;
I by ANNN, FX1E, FX29; the stack by 2NNN and 00EE; DT by FX15; ST by FX18; memory by FX33 and FX55; the screen and
redrawPending by 00E0 and DXYN, which leave redrawPending set. -/
def Obligations.OnlyTheirInstructionsChangeState : Prop :=
  ∀ (i : Instr) (s t : State), exec i s = .next t →
    SameKeys s t ∧
    (t.I ≠ s.I → (∃ nnn, i = .ldI nnn) ∨ (∃ x, i = .addIVx x) ∨ ∃ x, i = .ldFVx x) ∧
    (¬ SameStack s t → (∃ nnn, i = .call nnn) ∨ i = .ret) ∧
    (t.DT ≠ s.DT → ∃ x, i = .ldDtVx x) ∧
    (t.ST ≠ s.ST → ∃ x, i = .ldStVx x) ∧
    (¬ SameMemory s t → (∃ x, i = .ldBVx x) ∨ ∃ x, i = .ldMemVx x) ∧
    (¬ SameDisplay s t → (i = .cls ∨ ∃ x y n, i = .drw x y n) ∧ t.RD = true)

/-- R22: SP moves by at most one, up only by 2NNN and down only by 00EE. -/
def Obligations.StackPointerMovesByOne : Prop :=
  ∀ (i : Instr) (s t : State), exec i s = .next t →
    t.SP = s.SP ∨ (t.SP.val = s.SP.val + 1 ∧ ∃ nnn, i = .call nnn) ∨ (t.SP.val + 1 = s.SP.val ∧ i = .ret)

/-- R108: after a successful decode only these raise, each its own one error; every other form answers a next state, from
every state. -/
def Obligations.OnlyTheseInstructionsRaise : Prop :=
  ∀ (i : Instr) (s : State),
    (∀ f : Fault, exec i s = .fault f → OwnError i s f) ∧
      ((∀ f : Fault, ¬ OwnError i s f) → ∃ t, exec i s = .next t)

/-- R107, R109: every error of a step is one of the kinds 2 to 6 and carries the pc of the instruction that raised it. -/
def Obligations.StepErrorsCarryPc : Prop :=
  ∀ (s : State) (f : Fault), step s = .fault f →
    f.atPc = some s.pc ∧ ∃ c, f.code = some c ∧ 2 ≤ c ∧ c ≤ 6

/-- R65: a step is never refused: every instruction of the opcode map has a meaning. -/
def Obligations.StepIsNeverRefused : Prop := ∀ (s : State) (r : Refusal), step s ≠ .refused r

/-- R65, R66: a step is exactly one of an error, which leaves the state as it was; Waiting, an FX0A with no key pressed, which
leaves it as it was too; or Executed, with the instruction's new state. -/
def Obligations.HostStepOutcomes : Prop :=
  ∀ (r : Byte) (s : State),
    if (∃ x, s.fetchInstr = .ok (.ldVxK x)) ∧ ∀ k : Fin 16, s.KEY[k.val] = false then hostStep r s = (.waiting, s)
    else
      (∃ f, stepWith r s = .fault f ∧ hostStep r s = (.error f, s)) ∨
        ∃ t, stepWith r s = .next t ∧ hostStep r s = (.executed, t)

/-- R69: only CXNN reads the random byte, and it reads it only under its mask; the step of the model is the step with the
free value of log 1 as its byte. -/
def Obligations.OnlyRndReadsRandomByte : Prop :=
  ∀ s : State, step s = stepWith (Config.randomByte s.draws) s ∧
    ((∀ x nn, s.fetchInstr ≠ .ok (.rnd x nn)) → ∀ r r' : Byte, stepWith r s = stepWith r' s) ∧
    ∀ x nn, s.fetchInstr = .ok (.rnd x nn) → ∀ r r' : Byte, r &&& nn = r' &&& nn → stepWith r s = stepWith r' s

/-- R112, R128: from a quiescent state every step, whatever its random byte, gives the same reply and leaves the state as it
was: the same error, Executed for the self-loop, Waiting for the key wait. -/
def Obligations.QuiescentStatesStay : Prop :=
  ∀ s : State, Quiescent s → ∃ reply : HostReply, (∀ r : Byte, hostStep r s = (reply, s)) ∧
    (Errs s → ∃ f, reply = .error f) ∧ (SelfLoop s → reply = .executed) ∧ (s.waits = true → reply = .waiting)

/-! ### The host interface -/

/-- R129, R32: reset always succeeds, from power-on and from every state, and leaves the values of R32. -/
def Obligations.ResetLeavesResetValues : Prop :=
  ∀ before : Option State, ∃ t, perform .reset before = (.done, some t) ∧
    (∀ r : RegIdx, t.reg r = 0) ∧ t.I = 0 ∧ t.pc = 0x200#16 ∧ t.SP.val = 0 ∧ t.DT = 0 ∧ t.ST = 0 ∧ t.RD = false ∧
    (∀ k : Fin 16, t.S[k.val] = 0) ∧ (∀ k : Fin 16, t.KEY[k.val] = false) ∧ (∀ x y, t.FB.pixel x y = false) ∧
    (∀ a : Nat, a < 80 → FONT[a]? = some (t.M.read a)) ∧ ∀ a : Nat, 80 ≤ a → t.M.read a = 0

/-- R130: loadProgram resets, then copies a ROM of at most 3584 bytes to 0x200 and nothing else; an oversized ROM is
RomTooLarge and leaves the reset state. -/
def Obligations.LoadProgramResult : Prop :=
  ∀ (bytes : List Byte) (before : Option State), ∃ z t, perform .reset before = (.done, some z) ∧
    (3584 < bytes.length →
      perform (.loadProgram bytes) before = (.error (.romTooLarge bytes.length), some z)) ∧
    (bytes.length ≤ 3584 →
      perform (.loadProgram bytes) before = (.done, some t) ∧
      (∀ (k : Nat) (h : k < bytes.length), t.M.read (0x200 + k) = bytes[k]) ∧
      SameMemoryOutside 0x200 bytes.length z t ∧ t.pc = z.pc ∧
      SameRegsExcept [] z t ∧ t.I = z.I ∧ SameStack z t ∧ SameDisplay z t ∧ SameTimers z t ∧ SameKeys z t)

/-- R117: tickTimers takes 1 from each timer that is not 0, and changes nothing else. -/
def Obligations.TickResult : Prop :=
  ∀ s : State, ∃ t, perform .tickTimers (some s) = (.done, some t) ∧
    t.DT.toNat = s.DT.toNat - 1 ∧ t.ST.toNat = s.ST.toNat - 1 ∧ t.pc = s.pc ∧
    SameRegsExcept [] s t ∧ t.I = s.I ∧ SameMemory s t ∧ SameStack s t ∧ SameDisplay s t ∧ SameKeys s t

/-- R119: a key write sets one latch and nothing else; an index above 15 is refused and changes nothing. -/
def Obligations.KeyWriteResult : Prop :=
  ∀ (k : Nat) (s : State),
    (15 < k →
      perform (.setKeyDown k) (some s) = (.refused (.hostKeyIndexOutOfRange k), some s) ∧
        perform (.setKeyUp k) (some s) = (.refused (.hostKeyIndexOutOfRange k), some s)) ∧
    ∀ h : k < 16,
      (∃ t, perform (.setKeyDown k) (some s) = (.done, some t) ∧ t.KEY[k] = true ∧
        (∀ j : Fin 16, j.val ≠ k → t.KEY[j.val] = s.KEY[j.val]) ∧ t = { s with KEY := t.KEY }) ∧
      ∃ t, perform (.setKeyUp k) (some s) = (.done, some t) ∧ t.KEY[k] = false ∧
        (∀ j : Fin 16, j.val ≠ k → t.KEY[j.val] = s.KEY[j.val]) ∧ t = { s with KEY := t.KEY }

/-- R120 to R122: the host reads the 2048 cells, cell y * 64 + x holding FB[x][y], with redrawPending, and the sound timer,
without changing anything; the acknowledge clears redrawPending and changes nothing else. -/
def Obligations.HostReadsResult : Prop :=
  ∀ s : State,
    (∃ cells, perform .readFramebuffer (some s) = (.frame cells s.RD, some s) ∧ cells.length = 2048 ∧
      ∀ (x : Fin 64) (y : Fin 32), cells[y.val * 64 + x.val]? = some (s.FB.pixel x y)) ∧
    perform .readSound (some s) = (.sound s.ST, some s) ∧
    perform .acknowledgeRedraw (some s) = (.done, some { s with RD := false })

/-- R131, R132: before the first reset only reset and loadProgram have a meaning; every other operation is a fault and the
machine stays unspecified (the spec's decision D16; the form of the fault is the model's, log 7). -/
def Obligations.NothingRunsBeforeReset : Prop :=
  ∀ op : HostOp, op ≠ .reset → (∀ bytes, op ≠ .loadProgram bytes) →
    perform op none = (.error .beforeFirstReset, none)

/-- R69, R116, R117, R119, R129, R130: every host operation, whatever its random byte, ROM or key, keeps the invariant from
every state that has it, and one before the first reset leaves no state or one that has it. The invariant's clause on the
canonical form of memory is the model's own, log 20 (DESIGN CHOICE). -/
def Obligations.EveryHostOperationKeepsInv : Prop :=
  (∀ (op : HostOp) (s t : State) (reply : HostReply), Inv s → perform op (some s) = (reply, some t) → Inv t) ∧
    ∀ (op : HostOp) (t : State) (reply : HostReply), perform op none = (reply, some t) → Inv t
end

