-- ==== Sys2Proof/Laws/Decode.lean ====
section
/-! SUPPORT. The fields of the one instruction format, read back from a word built from them, and a word rebuilt from its
fields (spec/30_encoding.md R50); the byte order of an instruction (R35). -/

namespace Sys2Proof

section
variable (g : BitVec 4) (x y : RegIdx) (n : Nibble) (nn : Byte) (nnn : Addr12) (op : Word)

/-! ### Fields of a word -/

@[simp] theorem fieldG_wordGNNN : fieldG (wordGNNN g nnn) = g := by
  apply BitVec.eq_of_getLsbD_eq; intro i hi
  simp only [fieldG, wordGNNN, BitVec.getLsbD_extractLsb', BitVec.getLsbD_append]
  simp [hi]

@[simp] theorem fieldNNN_wordGNNN : fieldNNN (wordGNNN g nnn) = nnn := by
  apply BitVec.eq_of_getLsbD_eq; intro i hi
  simp only [fieldNNN, wordGNNN, BitVec.getLsbD_extractLsb', BitVec.getLsbD_append]
  simp [hi]

@[simp] theorem fieldG_wordGXNN : fieldG (wordGXNN g x nn) = g := by
  apply BitVec.eq_of_getLsbD_eq; intro i hi
  have : ¬ 12 + i < 8 := by omega
  have : ¬ 12 + i - 8 < 4 := by omega
  have : 12 + i - 8 - 4 = i := by omega
  simp only [fieldG, wordGXNN, BitVec.getLsbD_extractLsb', BitVec.getLsbD_append]
  simp [*]

@[simp] theorem fieldX_wordGXNN : fieldX (wordGXNN g x nn) = x := by
  apply BitVec.eq_of_getLsbD_eq; intro i hi
  simp only [fieldX, wordGXNN, BitVec.getLsbD_extractLsb', BitVec.getLsbD_append]
  simp [hi]

@[simp] theorem fieldNN_wordGXNN : fieldNN (wordGXNN g x nn) = nn := by
  apply BitVec.eq_of_getLsbD_eq; intro i hi
  simp only [fieldNN, wordGXNN, BitVec.getLsbD_extractLsb', BitVec.getLsbD_append]
  simp [hi]

@[simp] theorem fieldG_wordGXYN : fieldG (wordGXYN g x y n) = g := by
  apply BitVec.eq_of_getLsbD_eq; intro i hi
  have : ¬ 12 + i < 4 := by omega
  have : ¬ 12 + i - 4 < 4 := by omega
  have : ¬ 12 + i - 4 - 4 < 4 := by omega
  have : 12 + i - 4 - 4 - 4 = i := by omega
  simp only [fieldG, wordGXYN, BitVec.getLsbD_extractLsb', BitVec.getLsbD_append]
  simp [*]

@[simp] theorem fieldX_wordGXYN : fieldX (wordGXYN g x y n) = x := by
  apply BitVec.eq_of_getLsbD_eq; intro i hi
  have : ¬ 8 + i < 4 := by omega
  have : ¬ 8 + i - 4 < 4 := by omega
  have : 8 + i - 4 - 4 = i := by omega
  simp only [fieldX, wordGXYN, BitVec.getLsbD_extractLsb', BitVec.getLsbD_append]
  simp [*]

@[simp] theorem fieldY_wordGXYN : fieldY (wordGXYN g x y n) = y := by
  apply BitVec.eq_of_getLsbD_eq; intro i hi
  simp only [fieldY, wordGXYN, BitVec.getLsbD_extractLsb', BitVec.getLsbD_append]
  simp [hi]

@[simp] theorem fieldN_wordGXYN : fieldN (wordGXYN g x y n) = n := by
  apply BitVec.eq_of_getLsbD_eq; intro i hi
  simp only [fieldN, wordGXYN, BitVec.getLsbD_extractLsb', BitVec.getLsbD_append]
  simp [hi]

/-! ### A word from its fields -/

theorem wordGNNN_of_fields : wordGNNN (fieldG op) (fieldNNN op) = op := by
  apply BitVec.eq_of_getLsbD_eq; intro i hi
  simp only [wordGNNN, fieldG, fieldNNN, BitVec.getLsbD_append, BitVec.getLsbD_extractLsb']
  by_cases h : i < 12
  · simp [h]
  · have h1 : i - 12 < 4 := by omega
    have h2 : 12 + (i - 12) = i := by omega
    simp [h, h1, h2]

theorem wordGXNN_of_fields : wordGXNN (fieldG op) (fieldX op) (fieldNN op) = op := by
  apply BitVec.eq_of_getLsbD_eq; intro i hi
  simp only [wordGXNN, fieldG, fieldX, fieldNN, BitVec.getLsbD_append, BitVec.getLsbD_extractLsb']
  by_cases h : i < 8
  · simp [h]
  · by_cases h1 : i - 8 < 4
    · have h2 : 8 + (i - 8) = i := by omega
      simp [h, h1, h2]
    · have h2 : i - 8 - 4 < 4 := by omega
      have h3 : 12 + (i - 8 - 4) = i := by omega
      simp [h, h1, h2, h3]

theorem wordGXYN_of_fields : wordGXYN (fieldG op) (fieldX op) (fieldY op) (fieldN op) = op := by
  apply BitVec.eq_of_getLsbD_eq; intro i hi
  simp only [wordGXYN, fieldG, fieldX, fieldY, fieldN, BitVec.getLsbD_append, BitVec.getLsbD_extractLsb']
  by_cases h : i < 4
  · simp [h]
  · by_cases h1 : i - 4 < 4
    · have h2 : 4 + (i - 4) = i := by omega
      simp [h, h1, h2]
    · by_cases h2 : i - 4 - 4 < 4
      · have h3 : 8 + (i - 4 - 4) = i := by omega
        simp [h, h1, h2, h3]
      · have h3 : i - 4 - 4 - 4 < 4 := by omega
        have h4 : 12 + (i - 4 - 4 - 4) = i := by omega
        simp [h, h1, h2, h3, h4]

/-- Fetching the two bytes a word is stored as gives the word back (R35). -/
@[simp] theorem wordOfBytes_high_low : wordOfBytes (highByte op) (lowByte op) = op := by
  apply BitVec.eq_of_getLsbD_eq; intro i hi
  simp only [wordOfBytes, highByte, lowByte, BitVec.getLsbD_append, BitVec.getLsbD_extractLsb']
  by_cases h : i < 8
  · simp [h]
  · have h1 : i - 8 < 8 := by omega
    have h2 : 8 + (i - 8) = i := by omega
    simp [h, h1, h2]

/-! ### A word under a row's mask -/

theorem wordGNNN_mask : wordGNNN g nnn &&& 0xF000#16 = wordGNNN g 0x000#12 := by
  rw [show (0xF000#16 : Word) = 0xF#4 ++ 0x000#12 by decide, wordGNNN, wordGNNN, BitVec.and_append,
    show (0xF#4 : BitVec 4) = BitVec.allOnes 4 by decide, BitVec.and_allOnes, BitVec.and_zero]

theorem wordGXNN_mask : wordGXNN g x nn &&& 0xF000#16 = wordGXNN g 0x0#4 0x00#8 := by
  rw [show (0xF000#16 : Word) = 0xF#4 ++ 0x0#4 ++ 0x00#8 by decide, wordGXNN, wordGXNN, BitVec.and_append,
    BitVec.and_append, show (0xF#4 : BitVec 4) = BitVec.allOnes 4 by decide, BitVec.and_allOnes, BitVec.and_zero,
    BitVec.and_zero]

theorem wordGXNN_maskLow : wordGXNN g x nn &&& 0xF0FF#16 = wordGXNN g 0x0#4 nn := by
  rw [show (0xF0FF#16 : Word) = 0xF#4 ++ 0x0#4 ++ 0xFF#8 by decide, wordGXNN, wordGXNN, BitVec.and_append,
    BitVec.and_append, show (0xF#4 : BitVec 4) = BitVec.allOnes 4 by decide,
    show (0xFF#8 : BitVec 8) = BitVec.allOnes 8 by decide, BitVec.and_allOnes, BitVec.and_zero, BitVec.and_allOnes]

theorem wordGXYN_mask : wordGXYN g x y n &&& 0xF000#16 = wordGXYN g 0x0#4 0x0#4 0x0#4 := by
  rw [show (0xF000#16 : Word) = 0xF#4 ++ 0x0#4 ++ 0x0#4 ++ 0x0#4 by decide, wordGXYN, wordGXYN, BitVec.and_append,
    BitVec.and_append, BitVec.and_append, show (0xF#4 : BitVec 4) = BitVec.allOnes 4 by decide, BitVec.and_allOnes,
    BitVec.and_zero, BitVec.and_zero, BitVec.and_zero]

theorem wordGXYN_maskLow : wordGXYN g x y n &&& 0xF00F#16 = wordGXYN g 0x0#4 0x0#4 n := by
  rw [show (0xF00F#16 : Word) = 0xF#4 ++ 0x0#4 ++ 0x0#4 ++ 0xF#4 by decide, wordGXYN, wordGXYN, BitVec.and_append,
    BitVec.and_append, BitVec.and_append, show (0xF#4 : BitVec 4) = BitVec.allOnes 4 by decide, BitVec.and_allOnes,
    BitVec.and_zero, BitVec.and_zero, BitVec.and_allOnes]

end

end Sys2Proof
end

