-- ==== Sys2Proof/Laws/State.lean ====
section
/-! SUPPORT. One lemma per field per update of the state, and what a register reads after each update, so that no proof
unfolds a record update. -/

namespace Sys2Proof.Machine

variable (s : State)

/-! #### setReg -/

@[simp] theorem State.setReg_V (x : RegIdx) (b : Byte) : (s.setReg x b).V = s.V.set x.toNat b x.isLt := rfl
@[simp] theorem State.setReg_I (x : RegIdx) (b : Byte) : (s.setReg x b).I = s.I := rfl
@[simp] theorem State.setReg_pc (x : RegIdx) (b : Byte) : (s.setReg x b).pc = s.pc := rfl
@[simp] theorem State.setReg_S (x : RegIdx) (b : Byte) : (s.setReg x b).S = s.S := rfl
@[simp] theorem State.setReg_SP (x : RegIdx) (b : Byte) : (s.setReg x b).SP = s.SP := rfl
@[simp] theorem State.setReg_DT (x : RegIdx) (b : Byte) : (s.setReg x b).DT = s.DT := rfl
@[simp] theorem State.setReg_ST (x : RegIdx) (b : Byte) : (s.setReg x b).ST = s.ST := rfl
@[simp] theorem State.setReg_FB (x : RegIdx) (b : Byte) : (s.setReg x b).FB = s.FB := rfl
@[simp] theorem State.setReg_KEY (x : RegIdx) (b : Byte) : (s.setReg x b).KEY = s.KEY := rfl
@[simp] theorem State.setReg_RD (x : RegIdx) (b : Byte) : (s.setReg x b).RD = s.RD := rfl
@[simp] theorem State.setReg_M (x : RegIdx) (b : Byte) : (s.setReg x b).M = s.M := rfl
@[simp] theorem State.setReg_draws (x : RegIdx) (b : Byte) : (s.setReg x b).draws = s.draws := rfl

/-! #### setFlag -/

@[simp] theorem State.setFlag_V (b : Byte) : (s.setFlag b).V = s.V.set VF.toNat b VF.isLt := rfl
@[simp] theorem State.setFlag_I (b : Byte) : (s.setFlag b).I = s.I := rfl
@[simp] theorem State.setFlag_pc (b : Byte) : (s.setFlag b).pc = s.pc := rfl
@[simp] theorem State.setFlag_S (b : Byte) : (s.setFlag b).S = s.S := rfl
@[simp] theorem State.setFlag_SP (b : Byte) : (s.setFlag b).SP = s.SP := rfl
@[simp] theorem State.setFlag_DT (b : Byte) : (s.setFlag b).DT = s.DT := rfl
@[simp] theorem State.setFlag_ST (b : Byte) : (s.setFlag b).ST = s.ST := rfl
@[simp] theorem State.setFlag_FB (b : Byte) : (s.setFlag b).FB = s.FB := rfl
@[simp] theorem State.setFlag_KEY (b : Byte) : (s.setFlag b).KEY = s.KEY := rfl
@[simp] theorem State.setFlag_RD (b : Byte) : (s.setFlag b).RD = s.RD := rfl
@[simp] theorem State.setFlag_M (b : Byte) : (s.setFlag b).M = s.M := rfl
@[simp] theorem State.setFlag_draws (b : Byte) : (s.setFlag b).draws = s.draws := rfl

/-! #### setI -/

@[simp] theorem State.setI_V (w : Word) : (s.setI w).V = s.V := rfl
@[simp] theorem State.setI_I (w : Word) : (s.setI w).I = w := rfl
@[simp] theorem State.setI_pc (w : Word) : (s.setI w).pc = s.pc := rfl
@[simp] theorem State.setI_S (w : Word) : (s.setI w).S = s.S := rfl
@[simp] theorem State.setI_SP (w : Word) : (s.setI w).SP = s.SP := rfl
@[simp] theorem State.setI_DT (w : Word) : (s.setI w).DT = s.DT := rfl
@[simp] theorem State.setI_ST (w : Word) : (s.setI w).ST = s.ST := rfl
@[simp] theorem State.setI_FB (w : Word) : (s.setI w).FB = s.FB := rfl
@[simp] theorem State.setI_KEY (w : Word) : (s.setI w).KEY = s.KEY := rfl
@[simp] theorem State.setI_RD (w : Word) : (s.setI w).RD = s.RD := rfl
@[simp] theorem State.setI_M (w : Word) : (s.setI w).M = s.M := rfl
@[simp] theorem State.setI_draws (w : Word) : (s.setI w).draws = s.draws := rfl

/-! #### setPc -/

@[simp] theorem State.setPc_V (w : Word) : (s.setPc w).V = s.V := rfl
@[simp] theorem State.setPc_I (w : Word) : (s.setPc w).I = s.I := rfl
@[simp] theorem State.setPc_pc (w : Word) : (s.setPc w).pc = w := rfl
@[simp] theorem State.setPc_S (w : Word) : (s.setPc w).S = s.S := rfl
@[simp] theorem State.setPc_SP (w : Word) : (s.setPc w).SP = s.SP := rfl
@[simp] theorem State.setPc_DT (w : Word) : (s.setPc w).DT = s.DT := rfl
@[simp] theorem State.setPc_ST (w : Word) : (s.setPc w).ST = s.ST := rfl
@[simp] theorem State.setPc_FB (w : Word) : (s.setPc w).FB = s.FB := rfl
@[simp] theorem State.setPc_KEY (w : Word) : (s.setPc w).KEY = s.KEY := rfl
@[simp] theorem State.setPc_RD (w : Word) : (s.setPc w).RD = s.RD := rfl
@[simp] theorem State.setPc_M (w : Word) : (s.setPc w).M = s.M := rfl
@[simp] theorem State.setPc_draws (w : Word) : (s.setPc w).draws = s.draws := rfl

/-! #### advance -/

@[simp] theorem State.advance_V (n : Nat) : (s.advance n).V = s.V := rfl
@[simp] theorem State.advance_I (n : Nat) : (s.advance n).I = s.I := rfl
@[simp] theorem State.advance_pc (n : Nat) : (s.advance n).pc = u16 (s.pc.toNat + n) := rfl
@[simp] theorem State.advance_S (n : Nat) : (s.advance n).S = s.S := rfl
@[simp] theorem State.advance_SP (n : Nat) : (s.advance n).SP = s.SP := rfl
@[simp] theorem State.advance_DT (n : Nat) : (s.advance n).DT = s.DT := rfl
@[simp] theorem State.advance_ST (n : Nat) : (s.advance n).ST = s.ST := rfl
@[simp] theorem State.advance_FB (n : Nat) : (s.advance n).FB = s.FB := rfl
@[simp] theorem State.advance_KEY (n : Nat) : (s.advance n).KEY = s.KEY := rfl
@[simp] theorem State.advance_RD (n : Nat) : (s.advance n).RD = s.RD := rfl
@[simp] theorem State.advance_M (n : Nat) : (s.advance n).M = s.M := rfl
@[simp] theorem State.advance_draws (n : Nat) : (s.advance n).draws = s.draws := rfl

/-! #### nextInstr -/

@[simp] theorem State.nextInstr_V : (s.nextInstr).V = s.V := rfl
@[simp] theorem State.nextInstr_I : (s.nextInstr).I = s.I := rfl
@[simp] theorem State.nextInstr_pc : (s.nextInstr).pc = u16 (s.pc.toNat + 2) := rfl
@[simp] theorem State.nextInstr_S : (s.nextInstr).S = s.S := rfl
@[simp] theorem State.nextInstr_SP : (s.nextInstr).SP = s.SP := rfl
@[simp] theorem State.nextInstr_DT : (s.nextInstr).DT = s.DT := rfl
@[simp] theorem State.nextInstr_ST : (s.nextInstr).ST = s.ST := rfl
@[simp] theorem State.nextInstr_FB : (s.nextInstr).FB = s.FB := rfl
@[simp] theorem State.nextInstr_KEY : (s.nextInstr).KEY = s.KEY := rfl
@[simp] theorem State.nextInstr_RD : (s.nextInstr).RD = s.RD := rfl
@[simp] theorem State.nextInstr_M : (s.nextInstr).M = s.M := rfl
@[simp] theorem State.nextInstr_draws : (s.nextInstr).draws = s.draws := rfl

/-! #### skipIf -/

@[simp] theorem State.skipIf_V (c : Bool) : (s.skipIf c).V = s.V := by cases c <;> rfl
@[simp] theorem State.skipIf_I (c : Bool) : (s.skipIf c).I = s.I := by cases c <;> rfl
@[simp] theorem State.skipIf_pc (c : Bool) : (s.skipIf c).pc = u16 (s.pc.toNat + if c then 4 else 2) := by cases c <;> rfl
@[simp] theorem State.skipIf_S (c : Bool) : (s.skipIf c).S = s.S := by cases c <;> rfl
@[simp] theorem State.skipIf_SP (c : Bool) : (s.skipIf c).SP = s.SP := by cases c <;> rfl
@[simp] theorem State.skipIf_DT (c : Bool) : (s.skipIf c).DT = s.DT := by cases c <;> rfl
@[simp] theorem State.skipIf_ST (c : Bool) : (s.skipIf c).ST = s.ST := by cases c <;> rfl
@[simp] theorem State.skipIf_FB (c : Bool) : (s.skipIf c).FB = s.FB := by cases c <;> rfl
@[simp] theorem State.skipIf_KEY (c : Bool) : (s.skipIf c).KEY = s.KEY := by cases c <;> rfl
@[simp] theorem State.skipIf_RD (c : Bool) : (s.skipIf c).RD = s.RD := by cases c <;> rfl
@[simp] theorem State.skipIf_M (c : Bool) : (s.skipIf c).M = s.M := by cases c <;> rfl
@[simp] theorem State.skipIf_draws (c : Bool) : (s.skipIf c).draws = s.draws := by cases c <;> rfl

/-! #### setDT -/

@[simp] theorem State.setDT_V (b : Byte) : (s.setDT b).V = s.V := rfl
@[simp] theorem State.setDT_I (b : Byte) : (s.setDT b).I = s.I := rfl
@[simp] theorem State.setDT_pc (b : Byte) : (s.setDT b).pc = s.pc := rfl
@[simp] theorem State.setDT_S (b : Byte) : (s.setDT b).S = s.S := rfl
@[simp] theorem State.setDT_SP (b : Byte) : (s.setDT b).SP = s.SP := rfl
@[simp] theorem State.setDT_DT (b : Byte) : (s.setDT b).DT = b := rfl
@[simp] theorem State.setDT_ST (b : Byte) : (s.setDT b).ST = s.ST := rfl
@[simp] theorem State.setDT_FB (b : Byte) : (s.setDT b).FB = s.FB := rfl
@[simp] theorem State.setDT_KEY (b : Byte) : (s.setDT b).KEY = s.KEY := rfl
@[simp] theorem State.setDT_RD (b : Byte) : (s.setDT b).RD = s.RD := rfl
@[simp] theorem State.setDT_M (b : Byte) : (s.setDT b).M = s.M := rfl
@[simp] theorem State.setDT_draws (b : Byte) : (s.setDT b).draws = s.draws := rfl

/-! #### setST -/

@[simp] theorem State.setST_V (b : Byte) : (s.setST b).V = s.V := rfl
@[simp] theorem State.setST_I (b : Byte) : (s.setST b).I = s.I := rfl
@[simp] theorem State.setST_pc (b : Byte) : (s.setST b).pc = s.pc := rfl
@[simp] theorem State.setST_S (b : Byte) : (s.setST b).S = s.S := rfl
@[simp] theorem State.setST_SP (b : Byte) : (s.setST b).SP = s.SP := rfl
@[simp] theorem State.setST_DT (b : Byte) : (s.setST b).DT = s.DT := rfl
@[simp] theorem State.setST_ST (b : Byte) : (s.setST b).ST = b := rfl
@[simp] theorem State.setST_FB (b : Byte) : (s.setST b).FB = s.FB := rfl
@[simp] theorem State.setST_KEY (b : Byte) : (s.setST b).KEY = s.KEY := rfl
@[simp] theorem State.setST_RD (b : Byte) : (s.setST b).RD = s.RD := rfl
@[simp] theorem State.setST_M (b : Byte) : (s.setST b).M = s.M := rfl
@[simp] theorem State.setST_draws (b : Byte) : (s.setST b).draws = s.draws := rfl

/-! #### setM -/

@[simp] theorem State.setM_V (m : Memory) : (s.setM m).V = s.V := rfl
@[simp] theorem State.setM_I (m : Memory) : (s.setM m).I = s.I := rfl
@[simp] theorem State.setM_pc (m : Memory) : (s.setM m).pc = s.pc := rfl
@[simp] theorem State.setM_S (m : Memory) : (s.setM m).S = s.S := rfl
@[simp] theorem State.setM_SP (m : Memory) : (s.setM m).SP = s.SP := rfl
@[simp] theorem State.setM_DT (m : Memory) : (s.setM m).DT = s.DT := rfl
@[simp] theorem State.setM_ST (m : Memory) : (s.setM m).ST = s.ST := rfl
@[simp] theorem State.setM_FB (m : Memory) : (s.setM m).FB = s.FB := rfl
@[simp] theorem State.setM_KEY (m : Memory) : (s.setM m).KEY = s.KEY := rfl
@[simp] theorem State.setM_RD (m : Memory) : (s.setM m).RD = s.RD := rfl
@[simp] theorem State.setM_M (m : Memory) : (s.setM m).M = m := rfl
@[simp] theorem State.setM_draws (m : Memory) : (s.setM m).draws = s.draws := rfl

/-! #### setV -/

@[simp] theorem State.setV_V (v : Vector Byte 16) : (s.setV v).V = v := rfl
@[simp] theorem State.setV_I (v : Vector Byte 16) : (s.setV v).I = s.I := rfl
@[simp] theorem State.setV_pc (v : Vector Byte 16) : (s.setV v).pc = s.pc := rfl
@[simp] theorem State.setV_S (v : Vector Byte 16) : (s.setV v).S = s.S := rfl
@[simp] theorem State.setV_SP (v : Vector Byte 16) : (s.setV v).SP = s.SP := rfl
@[simp] theorem State.setV_DT (v : Vector Byte 16) : (s.setV v).DT = s.DT := rfl
@[simp] theorem State.setV_ST (v : Vector Byte 16) : (s.setV v).ST = s.ST := rfl
@[simp] theorem State.setV_FB (v : Vector Byte 16) : (s.setV v).FB = s.FB := rfl
@[simp] theorem State.setV_KEY (v : Vector Byte 16) : (s.setV v).KEY = s.KEY := rfl
@[simp] theorem State.setV_RD (v : Vector Byte 16) : (s.setV v).RD = s.RD := rfl
@[simp] theorem State.setV_M (v : Vector Byte 16) : (s.setV v).M = s.M := rfl
@[simp] theorem State.setV_draws (v : Vector Byte 16) : (s.setV v).draws = s.draws := rfl

/-! #### redraw -/

@[simp] theorem State.redraw_V (fb : Framebuffer) : (s.redraw fb).V = s.V := rfl
@[simp] theorem State.redraw_I (fb : Framebuffer) : (s.redraw fb).I = s.I := rfl
@[simp] theorem State.redraw_pc (fb : Framebuffer) : (s.redraw fb).pc = s.pc := rfl
@[simp] theorem State.redraw_S (fb : Framebuffer) : (s.redraw fb).S = s.S := rfl
@[simp] theorem State.redraw_SP (fb : Framebuffer) : (s.redraw fb).SP = s.SP := rfl
@[simp] theorem State.redraw_DT (fb : Framebuffer) : (s.redraw fb).DT = s.DT := rfl
@[simp] theorem State.redraw_ST (fb : Framebuffer) : (s.redraw fb).ST = s.ST := rfl
@[simp] theorem State.redraw_FB (fb : Framebuffer) : (s.redraw fb).FB = fb := rfl
@[simp] theorem State.redraw_KEY (fb : Framebuffer) : (s.redraw fb).KEY = s.KEY := rfl
@[simp] theorem State.redraw_RD (fb : Framebuffer) : (s.redraw fb).RD = true := rfl
@[simp] theorem State.redraw_M (fb : Framebuffer) : (s.redraw fb).M = s.M := rfl
@[simp] theorem State.redraw_draws (fb : Framebuffer) : (s.redraw fb).draws = s.draws := rfl

/-! #### countDraw -/

@[simp] theorem State.countDraw_V : (s.countDraw).V = s.V := rfl
@[simp] theorem State.countDraw_I : (s.countDraw).I = s.I := rfl
@[simp] theorem State.countDraw_pc : (s.countDraw).pc = s.pc := rfl
@[simp] theorem State.countDraw_S : (s.countDraw).S = s.S := rfl
@[simp] theorem State.countDraw_SP : (s.countDraw).SP = s.SP := rfl
@[simp] theorem State.countDraw_DT : (s.countDraw).DT = s.DT := rfl
@[simp] theorem State.countDraw_ST : (s.countDraw).ST = s.ST := rfl
@[simp] theorem State.countDraw_FB : (s.countDraw).FB = s.FB := rfl
@[simp] theorem State.countDraw_KEY : (s.countDraw).KEY = s.KEY := rfl
@[simp] theorem State.countDraw_RD : (s.countDraw).RD = s.RD := rfl
@[simp] theorem State.countDraw_M : (s.countDraw).M = s.M := rfl
@[simp] theorem State.countDraw_draws : (s.countDraw).draws = s.draws + 1 := rfl

/-! #### Registers -/

/-- Reading a register after writing one (R15). -/
theorem State.reg_setReg (x y : RegIdx) (b : Byte) : (s.setReg x b).reg y = if y = x then b else s.reg y := by
  simp only [State.reg, State.setReg, Vector.getElem_set, ← BitVec.toNat_eq, eq_comm (a := x)]

@[simp] theorem State.reg_setReg_same (x : RegIdx) (b : Byte) : (s.setReg x b).reg x = b := by
  simp [State.reg_setReg]

theorem State.reg_setReg_other {x y : RegIdx} (b : Byte) (h : y ≠ x) : (s.setReg x b).reg y = s.reg y := by
  simp [State.reg_setReg, h]

/-- VF holds the flag after it is written (R68). -/
@[simp] theorem State.reg_setFlag (b : Byte) : (s.setFlag b).reg VF = b := s.reg_setReg_same VF b

theorem State.reg_setFlag_other {y : RegIdx} (b : Byte) (h : y ≠ VF) : (s.setFlag b).reg y = s.reg y :=
  s.reg_setReg_other b h

/-- A register of a block-loaded file. -/
@[simp] theorem State.reg_setV (v : Vector Byte 16) (y : RegIdx) : (s.setV v).reg y = v[y.toNat]'y.isLt := rfl

@[simp] theorem State.reg_setI (w : Word) (y : RegIdx) : (s.setI w).reg y = s.reg y := rfl
@[simp] theorem State.reg_setPc (w : Word) (y : RegIdx) : (s.setPc w).reg y = s.reg y := rfl
@[simp] theorem State.reg_advance (n : Nat) (y : RegIdx) : (s.advance n).reg y = s.reg y := rfl
@[simp] theorem State.reg_nextInstr (y : RegIdx) : (s.nextInstr).reg y = s.reg y := rfl
@[simp] theorem State.reg_skipIf (c : Bool) (y : RegIdx) : (s.skipIf c).reg y = s.reg y := by cases c <;> rfl
@[simp] theorem State.reg_setDT (b : Byte) (y : RegIdx) : (s.setDT b).reg y = s.reg y := rfl
@[simp] theorem State.reg_setST (b : Byte) (y : RegIdx) : (s.setST b).reg y = s.reg y := rfl
@[simp] theorem State.reg_setM (m : Memory) (y : RegIdx) : (s.setM m).reg y = s.reg y := rfl
@[simp] theorem State.reg_redraw (fb : Framebuffer) (y : RegIdx) : (s.redraw fb).reg y = s.reg y := rfl
@[simp] theorem State.reg_countDraw (y : RegIdx) : (s.countDraw).reg y = s.reg y := rfl

/-- Two states with the same registers under `reg` have the same register file. -/
theorem State.V_eq_of_reg {s t : State} (h : ∀ r : RegIdx, t.reg r = s.reg r) : t.V = s.V := by
  refine Vector.ext fun k hk => ?_
  have := h (BitVec.ofNat 4 k)
  simpa [State.reg, Nat.mod_eq_of_lt hk] using this

/-! #### Values -/

@[simp] theorem u8_toNat (n : Nat) : (u8 n).toNat = n % 256 := by simp [u8]

@[simp] theorem u16_toNat (n : Nat) : (u16 n).toNat = n % 65536 := by simp [u16]

@[simp] theorem target_toNat (nnn : Addr12) : (target nnn).toNat = nnn.toNat := by
  simp only [target, BitVec.toNat_setWidth]; omega

end Sys2Proof.Machine
end

