-- ==== Sys2Proof/Laws/Memory.lean ====
section
/-! SUPPORT. The laws of memory: a read after a write to the same address gives the byte written, every other address
reads as before, and every operation keeps the canonical form (log 20). The read laws hold of every list, well formed or
not. -/

namespace Sys2Proof.Machine

/-! ### Reads after writes -/

theorem Memory.lookup_insert (m : Memory) (k j : Nat) (v : Byte) :
    (m.insert k v).lookup j = if k = j then some v else m.lookup j := by
  induction m with
  | nil => simp [Memory.insert, Memory.lookup]
  | cons c m ih =>
    obtain ⟨a, b⟩ := c
    simp only [Memory.insert]
    split
    · simp only [Memory.lookup]
    · split
      · subst_vars
        simp only [Memory.lookup]
        split <;> rfl
      · simp only [Memory.lookup, ih]
        by_cases ha : a = j
        · have hk : k ≠ j := by omega
          simp [ha, hk]
        · simp [ha]

theorem Memory.lookup_erase (m : Memory) (k j : Nat) :
    (m.erase k).lookup j = if k = j then none else m.lookup j := by
  induction m with
  | nil => simp [Memory.erase, Memory.lookup]
  | cons c m ih =>
    obtain ⟨a, b⟩ := c
    simp only [Memory.erase, Memory.lookup] at ih ⊢
    by_cases ha : a = k
    · rw [List.filter_cons_of_neg (by simp [ha]), ih]
      split
      · rfl
      · rw [if_neg (by omega)]
    · rw [List.filter_cons_of_pos (by simp [ha])]
      simp only [Memory.lookup, ih]
      by_cases hj : a = j
      · have : k ≠ j := by omega
        simp [hj, this]
      · simp [hj]

/-- What every address reads as after one write (R42). -/
theorem Memory.read_write (m : Memory) (k j : Nat) (v : Byte) :
    (m.write k v).read j = if j = k then v else m.read j := by
  simp only [Memory.write, Memory.read, eq_comm (a := j)]
  split
  · rw [Memory.lookup_erase]
    split
    · subst_vars; rfl
    · rfl
  · rw [Memory.lookup_insert]
    split <;> rfl

@[simp] theorem Memory.read_write_same (m : Memory) (k : Nat) (v : Byte) : (m.write k v).read k = v := by
  simp [Memory.read_write]

theorem Memory.read_write_other (m : Memory) {k j : Nat} (v : Byte) (h : j ≠ k) : (m.write k v).read j = m.read j := by
  simp [Memory.read_write, h]

/-- What every address reads as after a run of single-byte writes (R36): inside the run the byte written there, outside
it what it read before. -/
theorem Memory.read_writeBytes (m : Memory) (a : Nat) (bs : List Byte) (j : Nat) :
    (m.writeBytes a bs).read j = if a ≤ j then bs.getD (j - a) (m.read j) else m.read j := by
  induction bs generalizing m a with
  | nil => simp [Memory.writeBytes]
  | cons b bs ih =>
    rw [Memory.writeBytes, ih, Memory.read_write]
    by_cases h1 : a + 1 ≤ j
    · have h2 : a ≤ j := by omega
      have h3 : j ≠ a := by omega
      obtain ⟨d, rfl⟩ := Nat.exists_eq_add_of_le h1
      have h4 : a + 1 + d - a = d + 1 := by omega
      simp [h2, h3, h4]
    · by_cases h2 : a ≤ j
      · obtain rfl : j = a := by omega
        simp
      · have h3 : j ≠ a := by omega
        simp [h1, h2, h3]

theorem Memory.read_writeBytes_outside (m : Memory) (a : Nat) (bs : List Byte) {j : Nat}
    (h : ¬ (a ≤ j ∧ j < a + bs.length)) : (m.writeBytes a bs).read j = m.read j := by
  rw [Memory.read_writeBytes]
  split
  · rw [List.getD_eq_default _ _ (by omega)]
  · rfl

theorem Memory.read_writeBytes_inside (m : Memory) (a : Nat) (bs : List Byte) {k : Nat} (h : k < bs.length) :
    (m.writeBytes a bs).read (a + k) = bs[k] := by
  rw [Memory.read_writeBytes, if_pos (by omega), Nat.add_sub_cancel_left, List.getD_eq_getElem _ _ h]

@[simp] theorem Memory.length_readBytes (m : Memory) (a n : Nat) : (m.readBytes a n).length = n := by
  induction n generalizing a with
  | zero => rfl
  | succ n ih => simp [Memory.readBytes, ih]

theorem Memory.getElem_readBytes (m : Memory) (a n k : Nat) (h : k < (m.readBytes a n).length) :
    (m.readBytes a n)[k] = m.read (a + k) := by
  induction n generalizing a k with
  | zero => simp [Memory.readBytes] at h
  | succ n ih =>
    cases k with
    | zero => rfl
    | succ k =>
      simp only [Memory.readBytes, List.getElem_cons_succ]
      rw [ih (a + 1) k (by simpa [Memory.readBytes] using h), Nat.add_assoc, Nat.add_comm 1 k]

/-! ### The canonical form -/

theorem Memory.wfFrom_mono {m : Memory} {lo hi : Nat} (h : m.wfFrom hi = true) (hle : lo ≤ hi) :
    m.wfFrom lo = true := by
  cases m with
  | nil => rfl
  | cons c m =>
    obtain ⟨a, b⟩ := c
    simp only [Memory.wfFrom, Bool.and_eq_true, decide_eq_true_eq] at h ⊢
    exact ⟨⟨⟨by omega, h.1.1.2⟩, h.1.2⟩, h.2⟩

theorem Memory.wfFrom_insert {m : Memory} {lo k : Nat} {v : Byte} (h : m.wfFrom lo = true) (hlo : lo ≤ k)
    (hk : k < Config.memSize) (hv : v ≠ Memory.initial k) : (m.insert k v).wfFrom lo = true := by
  induction m generalizing lo with
  | nil => simp [Memory.insert, Memory.wfFrom, hlo, hk, hv]
  | cons c m ih =>
    obtain ⟨a, b⟩ := c
    simp only [Memory.wfFrom, Bool.and_eq_true, decide_eq_true_eq] at h
    obtain ⟨⟨⟨h1, h2⟩, h3⟩, h4⟩ := h
    simp only [Memory.insert]
    split
    · simp only [Memory.wfFrom, Bool.and_eq_true, decide_eq_true_eq, bne_iff_ne]
      exact ⟨⟨⟨hlo, hk⟩, hv⟩, ⟨⟨by omega, h2⟩, by simpa using h3⟩, h4⟩
    · split
      · subst_vars
        simp only [Memory.wfFrom, Bool.and_eq_true, decide_eq_true_eq, bne_iff_ne]
        exact ⟨⟨⟨h1, h2⟩, hv⟩, h4⟩
      · simp only [Memory.wfFrom, Bool.and_eq_true, decide_eq_true_eq]
        exact ⟨⟨⟨h1, h2⟩, h3⟩, ih h4 (by omega)⟩

theorem Memory.wfFrom_erase {m : Memory} {lo k : Nat} (h : m.wfFrom lo = true) : (m.erase k).wfFrom lo = true := by
  induction m generalizing lo with
  | nil => rfl
  | cons c m ih =>
    obtain ⟨a, b⟩ := c
    simp only [Memory.wfFrom, Bool.and_eq_true, decide_eq_true_eq] at h
    obtain ⟨⟨⟨h1, h2⟩, h3⟩, h4⟩ := h
    have ih' := ih h4
    simp only [Memory.erase] at ih' ⊢
    by_cases ha : a = k
    · rw [List.filter_cons_of_neg (by simp [ha])]
      exact Memory.wfFrom_mono ih' (by omega)
    · rw [List.filter_cons_of_pos (by simp [ha])]
      simp only [Memory.wfFrom, Bool.and_eq_true, decide_eq_true_eq]
      exact ⟨⟨⟨h1, h2⟩, h3⟩, ih'⟩

/-- A write inside 0..4095 keeps the canonical form. -/
theorem Memory.wf_write {m : Memory} {k : Nat} (v : Byte) (h : m.wf = true) (hk : k < Config.memSize) :
    (m.write k v).wf = true := by
  unfold Memory.write Memory.wf at *
  split
  · exact Memory.wfFrom_erase h
  · exact Memory.wfFrom_insert h (Nat.zero_le _) hk ‹_›

/-- A run of writes inside 0..4095 keeps the canonical form. -/
theorem Memory.wf_writeBytes {m : Memory} {a : Nat} (bs : List Byte) (h : m.wf = true)
    (hk : a + bs.length ≤ Config.memSize) : (m.writeBytes a bs).wf = true := by
  induction bs generalizing m a with
  | nil => exact h
  | cons b bs ih =>
    simp only [List.length_cons] at hk
    exact ih (Memory.wf_write b h (by omega)) (by omega)

/-- Reset memory is in the canonical form: it lists nothing. -/
theorem State.reset_M_wf : State.reset.M.wf = true := rfl

theorem Memory.lookup_eq_none_of_wfFrom {m : Memory} {lo k : Nat} (h : m.wfFrom lo = true) (hk : k < lo) :
    m.lookup k = none := by
  induction m generalizing lo with
  | nil => rfl
  | cons c m ih =>
    obtain ⟨a, b⟩ := c
    simp only [Memory.wfFrom, Bool.and_eq_true, decide_eq_true_eq] at h
    rw [Memory.lookup, if_neg (by omega), ih h.2 (by omega)]

/-- The form is canonical: two memories in it that read alike are the same list. -/
theorem Memory.eq_of_read_eq {m n : Memory} (hm : m.wf = true) (hn : n.wf = true) (h : ∀ a, m.read a = n.read a) :
    m = n := by
  suffices ∀ (lo : Nat) (m n : Memory), m.wfFrom lo = true → n.wfFrom lo = true → (∀ a, m.read a = n.read a) → m = n
    from this 0 m n hm hn h
  clear hm hn h m n
  intro lo m
  induction m generalizing lo with
  | nil =>
    intro n _ hn h
    cases n with
    | nil => rfl
    | cons c n =>
      obtain ⟨a, b⟩ := c
      simp only [Memory.wfFrom, Bool.and_eq_true, decide_eq_true_eq, bne_iff_ne] at hn
      have := h a
      simp [Memory.read, Memory.lookup] at this
      exact absurd this.symm hn.1.2
  | cons c m ih =>
    intro n hm hn h
    obtain ⟨a, b⟩ := c
    simp only [Memory.wfFrom, Bool.and_eq_true, decide_eq_true_eq, bne_iff_ne] at hm
    cases n with
    | nil =>
      have := h a
      simp [Memory.read, Memory.lookup] at this
      exact absurd this hm.1.2
    | cons c' n =>
      obtain ⟨a', b'⟩ := c'
      simp only [Memory.wfFrom, Bool.and_eq_true, decide_eq_true_eq, bne_iff_ne] at hn
      have key : a = a' := by
        rcases Nat.lt_trichotomy a a' with hlt | heq | hgt
        · have h1 := h a
          have h2 : Memory.lookup n a = none := Memory.lookup_eq_none_of_wfFrom hn.2 (by omega)
          have h3 : a' ≠ a := by omega
          simp [Memory.read, Memory.lookup, h2, h3] at h1
          exact absurd h1 hm.1.2
        · exact heq
        · have h1 := h a'
          have h2 : Memory.lookup m a' = none := Memory.lookup_eq_none_of_wfFrom hm.2 (by omega)
          have h3 : a ≠ a' := by omega
          simp [Memory.read, Memory.lookup, h2, h3] at h1
          exact absurd h1.symm hn.1.2
      subst key
      have hb : b = b' := by simpa [Memory.read, Memory.lookup] using h a
      subst hb
      congr 1
      refine ih (a + 1) n hm.2 hn.2 (fun j => ?_)
      by_cases hj : a = j
      · subst hj
        simp only [Memory.read, Memory.lookup_eq_none_of_wfFrom hm.2 (Nat.lt_succ_self _),
          Memory.lookup_eq_none_of_wfFrom hn.2 (Nat.lt_succ_self _)]
      · simpa [Memory.read, Memory.lookup, hj] using h j

end Sys2Proof.Machine
end

