-- ==== Sys2Proof/Laws/Display.lean ====
section
/-! SUPPORT. What a flip and a whole sprite do to every pixel (spec/44_display.md R97, R98, R100). A draw is a run of flips
at distinct positions, so the order of the flips does not matter and each covered pixel changes exactly once. -/

namespace Sys2Proof.Machine

/-! ### One pixel -/

@[simp] theorem Framebuffer.pixel_clear (x : Fin 64) (y : Fin 32) : Framebuffer.clear.pixel x y = false := by
  simp [Framebuffer.pixel, Framebuffer.clear]

/-- A flip changes its own pixel and no other (R100). -/
theorem Framebuffer.pixel_flip (fb : Framebuffer) (x x' : Fin 64) (y y' : Fin 32) :
    (fb.flip x y).pixel x' y' = if x' = x ∧ y' = y then !fb.pixel x' y' else fb.pixel x' y' := by
  simp only [Framebuffer.pixel, Framebuffer.flip, Vector.getElem_set]
  by_cases hy : y' = y
  · subst hy
    by_cases hx : x' = x
    · subst hx; simp
    · have : x'.val ≠ x.val := fun h => hx (Fin.ext h)
      simp [hx, this]
  · have : y.val ≠ y'.val := fun h => hy (Fin.ext h.symm)
    simp [hy, this]

/-- Two framebuffers with the same pixels are equal. -/
theorem Framebuffer.eq_of_pixel {f g : Framebuffer} (h : ∀ x y, f.pixel x y = g.pixel x y) : f = g := by
  refine Vector.ext fun y hy => ?_
  apply BitVec.eq_of_getLsbD_eq
  intro x hx
  exact h ⟨x, hx⟩ ⟨y, hy⟩

/-! ### A draw as a run of flips -/

/-- A screen position. -/
abbrev Pos := Fin 64 × Fin 32

/-- One flip of a draw, at a position. -/
def flipAt (d : Blit) (p : Pos) : Blit := { fb := d.fb.flip p.1 p.2, hit := d.hit || d.fb.pixel p.1 p.2 }

/-- The set columns of a sprite row, as screen positions. -/
def rowPositions (a b row : Byte) (r : Nat) : List Pos :=
  (spriteCols.filter (fun col => spriteBit row col)).map (fun col => (screenX a col, screenY b r))

/-- The set bits of the rows from `r` on, as screen positions. -/
def positions (a b : Byte) : List Byte → Nat → List Pos
  | [], _ => []
  | row :: rows, r => rowPositions a b row r ++ positions a b rows (r + 1)

theorem drawRow_eq_flips (a b row : Byte) (r : Nat) (d : Blit) :
    drawRow a b d row r = (rowPositions a b row r).foldl flipAt d := by
  simp only [drawRow, rowPositions, List.foldl_map, List.foldl_filter]
  rfl

theorem drawRows_eq_flips (a b : Byte) (rows : List Byte) (r : Nat) (d : Blit) :
    drawRows a b rows r d = (positions a b rows r).foldl flipAt d := by
  induction rows generalizing r d with
  | nil => rfl
  | cons row rows ih => simp only [drawRows, positions, List.foldl_append, ih, drawRow_eq_flips]

/-- A run of flips at distinct positions: each listed pixel is inverted, every other stays, and there is a hit exactly
when some listed pixel was on. -/
theorem flips_spec (ps : List Pos) (hnd : ps.Nodup) (d : Blit) :
    (∀ q : Pos, (ps.foldl flipAt d).fb.pixel q.1 q.2 = (d.fb.pixel q.1 q.2 ^^ decide (q ∈ ps))) ∧
      (ps.foldl flipAt d).hit = (d.hit || ps.any (fun p => d.fb.pixel p.1 p.2)) := by
  induction ps generalizing d with
  | nil => simp
  | cons p ps ih =>
    obtain ⟨hp, hnd⟩ := List.nodup_cons.mp hnd
    obtain ⟨h1, h2⟩ := ih hnd (flipAt d p)
    have hflip : ∀ q : Pos, (flipAt d p).fb.pixel q.1 q.2 = (d.fb.pixel q.1 q.2 ^^ decide (q = p)) := by
      intro q
      simp only [flipAt, Framebuffer.pixel_flip, Prod.ext_iff]
      by_cases h : q.1 = p.1 ∧ q.2 = p.2 <;> simp [h]
    constructor
    · intro q
      rw [List.foldl_cons, h1 q, hflip q]
      by_cases hq : q = p
      · subst hq; simp [hp]
      · simp [hq]
    · rw [List.foldl_cons, h2, List.any_cons]
      have : ps.any (fun p' => (flipAt d p).fb.pixel p'.1 p'.2) = ps.any (fun p' => d.fb.pixel p'.1 p'.2) := by
        rw [Bool.eq_iff_iff, List.any_eq_true, List.any_eq_true]
        have hne : ∀ q ∈ ps, q ≠ p := fun q hq h => hp (h ▸ hq)
        constructor <;>
          exact fun ⟨q, hq, h⟩ => ⟨q, hq, by simpa [hflip q, hne q hq] using h⟩
      rw [this]
      simp [flipAt, Bool.or_assoc]

/-! ### Where a sprite lands -/

theorem mem_spriteCols (col : Nat) : col ∈ spriteCols ↔ col < 8 := by
  simp [spriteCols]; omega

theorem screenX_val (a : Byte) (col : Nat) : (screenX a col).val = (a.toNat + col) % 64 := rfl

theorem screenY_val (b : Byte) (r : Nat) : (screenY b r).val = (b.toNat + r) % 32 := rfl

theorem screenX_inj {a : Byte} {c c' : Nat} (hc : c < 8) (hc' : c' < 8) (h : screenX a c = screenX a c') : c = c' := by
  have := congrArg Fin.val h
  simp only [screenX_val] at this
  omega

theorem screenY_inj {b : Byte} {r r' : Nat} (h : screenY b r = screenY b r') (hr : r < r' + 32) (hr' : r' < r + 32) :
    r = r' := by
  have := congrArg Fin.val h
  simp only [screenY_val] at this
  omega

theorem mem_rowPositions {a b row : Byte} {r : Nat} {q : Pos} :
    q ∈ rowPositions a b row r ↔ ∃ col, col < 8 ∧ spriteBit row col = true ∧ q = (screenX a col, screenY b r) := by
  simp only [rowPositions, List.mem_map, List.mem_filter, mem_spriteCols]
  constructor
  · rintro ⟨col, ⟨h1, h2⟩, rfl⟩; exact ⟨col, h1, h2, rfl⟩
  · rintro ⟨col, h1, h2, rfl⟩; exact ⟨col, ⟨h1, h2⟩, rfl⟩

/-- The positions of a sprite: one for each set bit (R97, R98). -/
theorem mem_positions {a b : Byte} {rows : List Byte} {r : Nat} {q : Pos} :
    q ∈ positions a b rows r ↔ ∃ col k, ∃ h : k < rows.length,
      col < 8 ∧ spriteBit rows[k] col = true ∧ q = (screenX a col, screenY b (r + k)) := by
  induction rows generalizing r with
  | nil => simp [positions]
  | cons row rows ih =>
    simp only [positions, List.mem_append, ih, mem_rowPositions]
    constructor
    · rintro (⟨col, h1, h2, rfl⟩ | ⟨col, k, hk, h1, h2, rfl⟩)
      · exact ⟨col, 0, by simp, h1, h2, rfl⟩
      · exact ⟨col, k + 1, by simpa using hk, h1, by simpa using h2, by rw [Nat.add_assoc, Nat.add_comm 1 k]⟩
    · rintro ⟨col, k, hk, h1, h2, rfl⟩
      cases k with
      | zero => exact .inl ⟨col, h1, by simpa using h2, rfl⟩
      | succ k =>
        exact .inr ⟨col, k, by simpa using hk, h1, by simpa using h2, by rw [Nat.add_assoc, Nat.add_comm 1 k]⟩

/-- No two set bits of one draw land on the same cell (R98), for a sprite of at most 32 rows. -/
theorem nodup_positions (a b : Byte) (rows : List Byte) (r : Nat) (hlen : rows.length ≤ 32) :
    (positions a b rows r).Nodup := by
  induction rows generalizing r with
  | nil => simp [positions]
  | cons row rows ih =>
    simp only [List.length_cons] at hlen
    rw [positions, List.nodup_append]
    refine ⟨?_, ih (r + 1) (by omega), ?_⟩
    · rw [rowPositions]
      refine List.Nodup.map_on ?_ (List.Nodup.filter _ (by decide))
      intro c hc c' hc' h
      exact screenX_inj ((mem_spriteCols c).mp (List.mem_filter.mp hc).1) ((mem_spriteCols c').mp (List.mem_filter.mp hc').1)
        (congrArg Prod.fst h)
    · rintro p hp q hq rfl
      obtain ⟨c, _, _, h1⟩ := mem_rowPositions.mp hp
      obtain ⟨c', k, hk, _, _, h2⟩ := mem_positions.mp hq
      have := screenY_inj (congrArg Prod.snd (h1.symm.trans h2)) (by omega) (by omega)
      omega

/-- Everything a draw can do (R100): a pixel is inverted exactly where a set bit of the sprite lands, and there is a hit
exactly when one of those pixels was on. -/
theorem drawSprite_spec (a b : Byte) (rows : List Byte) (fb : Framebuffer) (hlen : rows.length ≤ 32) :
    (∀ x y, (drawSprite a b rows fb).fb.pixel x y = (fb.pixel x y ^^ decide ((x, y) ∈ positions a b rows 0))) ∧
      (drawSprite a b rows fb).hit = (positions a b rows 0).any (fun p => fb.pixel p.1 p.2) := by
  obtain ⟨h1, h2⟩ := flips_spec (positions a b rows 0) (nodup_positions a b rows 0 hlen) { fb := fb, hit := false }
  rw [drawSprite, drawRows_eq_flips]
  exact ⟨fun x y => h1 (x, y), by simpa using h2⟩

end Sys2Proof.Machine
end

