-- ==== Sys2Proof/Laws/Operands.lean ====
section
/-! SUPPORT. What each operand form stands for, said once. -/

namespace Sys2Proof.Machine

/-- Everything a block load can do (R96): the first `n` registers hold the bytes from `i` on, the others stay. -/
theorem getElem_loadRegs (v : Vector Byte 16) (m : Memory) (i n k : Nat) (hk : k < 16) :
    (loadRegs v m i n)[k] = if k < n then m.read (i + k) else v[k] := by
  induction n with
  | zero => simp [loadRegs]
  | succ n ih =>
    simp only [loadRegs]
    rw [Vector.getElem_setIfInBounds]
    by_cases h : n = k
    · subst h; simp
    · rw [if_neg h, ih]
      by_cases h2 : k < n
      · rw [if_pos h2, if_pos (by omega)]
      · rw [if_neg h2, if_neg (by omega)]

@[simp] theorem length_firstRegs (v : Vector Byte 16) (x : RegIdx) : (firstRegs v (upTo x)).length = upTo x := by
  have := x.isLt
  simp [firstRegs, upTo]; omega

/-- The stored bytes of a block store (R95): the registers in order. -/
theorem getElem_firstRegs (v : Vector Byte 16) (n k : Nat) (hk : k < 16) (h : k < (firstRegs v n).length) :
    (firstRegs v n)[k] = v[k] := by
  simp [firstRegs]

@[simp] theorem length_decimalDigits (a : Byte) : (decimalDigits a).length = 3 := rfl

/-- A key latch exists exactly for the indices 0..15 (R101, decision D12). -/
theorem State.keyLatch_eq_none (s : State) (a : Byte) : s.keyLatch a = none ↔ 15 < a.toNat := by
  simp [State.keyLatch]; omega

theorem State.keyLatch_of_lt (s : State) (a : Byte) (h : a.toNat < 16) : s.keyLatch a = some s.KEY[a.toNat] := by
  simp [State.keyLatch, h]

theorem mem_keyNumbers (k : Fin 16) : k ∈ keyNumbers := by revert k; decide

/-- No key is pressed exactly when every latch is false (R104). -/
theorem State.lowestKey_eq_none (s : State) : s.lowestKey = none ↔ ∀ k : Fin 16, s.KEY[k.val] = false := by
  simp [State.lowestKey, mem_keyNumbers]

/-- The key FX0A takes is pressed, and no lower one is (R104). -/
theorem State.lowestKey_eq_some (s : State) (k : Fin 16) :
    s.lowestKey = some k ↔ s.KEY[k.val] = true ∧ ∀ j : Fin 16, j < k → s.KEY[j.val] = false := by
  have hsorted : keyNumbers.Pairwise (· < ·) := by decide
  rw [State.lowestKey, List.find?_eq_some_iff_append]
  constructor
  · rintro ⟨hk, as, bs, hl, has⟩
    refine ⟨hk, fun j hj => ?_⟩
    rw [hl] at hsorted
    have hmem := mem_keyNumbers j
    rw [hl] at hmem
    rcases List.mem_append.mp hmem with h | h
    · simpa using has j h
    · exfalso
      rcases List.mem_cons.mp h with rfl | h
      · exact absurd hj (lt_irrefl _)
      · have := (List.pairwise_append.mp hsorted).2.1
        exact absurd (List.rel_of_pairwise_cons this h) (not_lt.mpr hj.le)
  · rintro ⟨hk, hlow⟩
    obtain ⟨as, bs, hl⟩ := List.append_of_mem (mem_keyNumbers k)
    refine ⟨hk, as, bs, hl, fun j hj => ?_⟩
    rw [hl] at hsorted
    have := (List.pairwise_append.mp hsorted).2.2 j hj k (List.mem_cons_self ..)
    simpa using hlow j this

end Sys2Proof.Machine
end

