-- ==== Sys2Proof/Laws/Ops.lean ====
section
/-! SUPPORT. What each shared operation can do, said once: the stack, the bounds check, the fetch, the step, and the ways
a meaning ends. -/

namespace Sys2Proof.Machine

/-! ### The stack -/

/-- A push fails on a full stack and on no other (R22, R73). -/
theorem State.push_eq_none (s : State) (w : Word) : s.push w = none ↔ s.SP.val = 16 := by
  have := s.SP.isLt
  unfold State.push
  split
  · simp; omega
  · simp; omega

/-- Everything a push can do (R73): it writes the entry at SP, raises SP by one, and changes nothing else. -/
theorem State.push_some {s t : State} {w : Word} (h : s.push w = some t) :
    ∃ hlt : s.SP.val < 16, t = { s with S := s.S.set s.SP.val w hlt, SP := ⟨s.SP.val + 1, Nat.succ_lt_succ hlt⟩ } := by
  unfold State.push at h
  split at h
  · exact ⟨‹_›, (Option.some.inj h).symm⟩
  · cases h

theorem State.push_of_lt (s : State) (w : Word) (h : s.SP.val < 16) :
    s.push w = some { s with S := s.S.set s.SP.val w h, SP := ⟨s.SP.val + 1, Nat.succ_lt_succ h⟩ } := by
  simp only [State.push, h, dite_true]

/-- A pop fails on an empty stack and on no other (R22, R71). -/
theorem State.pop_eq_none (s : State) : s.pop = none ↔ s.SP.val = 0 := by
  unfold State.pop
  split
  · exact iff_of_true rfl ‹_›
  · exact iff_of_false (fun h => by cases h) ‹_›

/-- Everything a pop can do (R71): it reads the top entry, lowers SP by one, and changes nothing else. -/
theorem State.pop_some {s t : State} {w : Word} (h : s.pop = some (w, t)) :
    ∃ k : Fin 16, k.val + 1 = s.SP.val ∧ w = s.S[k.val] ∧ t = { s with SP := ⟨k.val, by omega⟩ } := by
  have hlt := s.SP.isLt
  unfold State.pop at h
  split at h
  · cases h
  · simp only [Option.some.injEq, Prod.mk.injEq] at h
    exact ⟨⟨s.SP.val - 1, by omega⟩, by simp only; omega, h.1.symm, h.2.symm⟩

theorem State.pop_of_succ (s : State) (k : Fin 16) (h : s.SP.val = k.val + 1) :
    s.pop = some (s.S[k.val], { s with SP := ⟨k.val, by omega⟩ }) := by
  simp only [State.pop, h, Nat.add_sub_cancel, Nat.succ_ne_zero, dite_false]

/-! ### The bounds check -/

/-- The check passes exactly when no byte of the access lies above 0xFFF (R39). -/
theorem State.rangeFault_eq_none (s : State) (n : Nat) :
    s.rangeFault n = none ↔ n = 0 ∨ s.I.toNat + n ≤ Config.memSize := by
  unfold State.rangeFault Config.memSize
  split
  · simp; omega
  · simp; omega

/-- The one error the check can raise (R107). -/
theorem State.rangeFault_eq_some {s : State} {n : Nat} {f : Fault} (h : s.rangeFault n = some f) :
    f = .memoryAddressOutOfRange s.pc (max s.I.toNat 0x1000) ∧ 0 < n ∧ Config.memSize < s.I.toNat + n := by
  unfold State.rangeFault at h
  split at h
  · refine ⟨(Option.some.inj h).symm, ‹_ ∧ _›.1, ?_⟩
    unfold Config.memSize; omega
  · cases h

theorem State.rangeFault_of_out (s : State) (n : Nat) (h0 : 0 < n) (h : Config.memSize < s.I.toNat + n) :
    s.rangeFault n = some (.memoryAddressOutOfRange s.pc (max s.I.toNat 0x1000)) := by
  unfold Config.memSize at h
  simp only [State.rangeFault]
  rw [if_pos ⟨h0, by omega⟩]

/-! ### How a meaning ends -/

/-- Everything a transfer can do: the error of the check, or the new state (R39, R66). -/
theorem State.transfer_eq (s t : State) (n : Nat) :
    s.transfer n t = if n = 0 ∨ s.I.toNat + n ≤ Config.memSize then .next t
      else .fault (.memoryAddressOutOfRange s.pc (max s.I.toNat 0x1000)) := by
  unfold State.transfer
  split
  · rename_i f h
    obtain ⟨rfl, h1, h2⟩ := State.rangeFault_eq_some h
    rw [if_neg (by omega)]; rfl
  · rename_i h
    rw [if_pos ((State.rangeFault_eq_none s n).mp h)]

theorem State.transfer_next {s t u : State} {n : Nat} (h : s.transfer n t = .next u) :
    u = t ∧ (n = 0 ∨ s.I.toNat + n ≤ Config.memSize) := by
  rw [State.transfer_eq] at h
  split at h
  · exact ⟨(Host.Outcome.next.inj h).symm, ‹_›⟩
  · cases h

/-! ### Fetch and step -/

/-- The word a fetch reads (R35). -/
def State.wordAtPc (s : State) : Word := wordOfBytes (s.M.read s.pc.toNat) (s.M.read (s.pc.toNat + 1))

/-- Everything a fetch can do (R61). -/
theorem State.fetch_eq (s : State) :
    s.fetch = if 4094 < s.pc.toNat then .error (.memoryAddressOutOfRange s.pc s.pc.toNat) else .ok s.wordAtPc := rfl

theorem State.fetchInstr_of_out (s : State) (h : 4094 < s.pc.toNat) :
    s.fetchInstr = .error (.memoryAddressOutOfRange s.pc s.pc.toNat) := by
  simp only [State.fetchInstr, State.fetch_eq, if_pos h]

theorem State.fetchInstr_of_ok (s : State) {i : Instr} (h : s.pc.toNat ≤ 4094) (hd : decode s.wordAtPc = .ok i) :
    s.fetchInstr = .ok i := by
  simp only [State.fetchInstr, State.fetch_eq, if_neg (Nat.not_lt.mpr h), hd]

theorem State.fetchInstr_of_error (s : State) {w : Word} (h : s.pc.toNat ≤ 4094)
    (hd : decode s.wordAtPc = .error (.unimplementedOpcode w)) :
    s.fetchInstr = .error (.unimplementedOpcode s.pc w) := by
  simp only [State.fetchInstr, State.fetch_eq, if_neg (Nat.not_lt.mpr h), hd]

/-- An instruction is fetched only from 0..4094, and is what the word there decodes to (R61). -/
theorem State.fetchInstr_ok {s : State} {i : Instr} (h : s.fetchInstr = .ok i) :
    s.pc.toNat ≤ 4094 ∧ decode s.wordAtPc = .ok i := by
  simp only [State.fetchInstr, State.fetch_eq] at h
  by_cases hp : 4094 < s.pc.toNat
  · rw [if_pos hp] at h; cases h
  · rw [if_neg hp] at h
    refine ⟨Nat.le_of_not_lt hp, ?_⟩
    simp only at h
    split at h
    · rename_i j hj; cases h; exact hj
    · cases h

/-- The errors of a step before its instruction carry pc (R107). -/
theorem State.fetchInstr_error {s : State} {f : Fault} (h : s.fetchInstr = .error f) :
    (4094 < s.pc.toNat ∧ f = .memoryAddressOutOfRange s.pc s.pc.toNat) ∨
      (s.pc.toNat ≤ 4094 ∧ ∃ w, decode s.wordAtPc = .error (.unimplementedOpcode w) ∧ f = .unimplementedOpcode s.pc w) := by
  simp only [State.fetchInstr, State.fetch_eq] at h
  by_cases hp : 4094 < s.pc.toNat
  · rw [if_pos hp] at h; cases h; exact .inl ⟨hp, rfl⟩
  · rw [if_neg hp] at h
    refine .inr ⟨Nat.le_of_not_lt hp, ?_⟩
    simp only at h
    split at h
    · cases h
    · rename_i w hw; cases h; exact ⟨w, hw, rfl⟩

/-- A step that goes on has run the instruction at pc, which lay in 0..4094 (R61). -/
theorem step_next {s t : State} (h : step s = .next t) :
    ∃ i, s.fetchInstr = .ok i ∧ s.pc.toNat ≤ 4094 ∧ exec i s = .next t := by
  unfold step at h
  split at h
  · cases h
  · exact ⟨_, ‹_›, (State.fetchInstr_ok ‹_›).1, h⟩

theorem step_of_fetchInstr {s : State} {i : Instr} (h : s.fetchInstr = .ok i) : step s = exec i s := by
  simp only [step, h]

/-- What a fetch reads back from where an instruction was stored for it (R35, log 8). -/
theorem State.withFetchWord_fetch (s : State) (nbits w : Nat) (h : s.pc.toNat ≤ 4094) :
    (s.withFetchWord nbits w).fetch = .ok (u16 (w % 2 ^ nbits)) := by
  simp only [State.withFetchWord, State.storeAtPc, if_neg (Nat.not_lt.mpr h), State.fetch_eq, State.setM_pc,
    State.wordAtPc, State.setM_M, Memory.writeBytes, Memory.read_write, Nat.succ_ne_self, ite_true,
    ite_false, Nat.left_eq_add]
  simp

end Sys2Proof.Machine
end

