-- ==== Sys2Proof/Laws/Exec.lean ====
section
/-! SUPPORT. What the meanings with more than one way to end answer, said once for each: the stack instructions, the key
instructions, the transfers. The other meanings answer one next state by definition. -/

namespace Sys2Proof.Machine

variable (s : State)

/-- R71 on an empty stack. -/
theorem exec_ret_empty (h : s.SP.val = 0) : exec .ret s = .fault (.callStackUnderflow s.pc) := by
  simp only [exec, execRet, (s.pop_eq_none).mpr h]; rfl

/-- R71 with `k + 1` entries. -/
theorem exec_ret_next (k : Fin 16) (h : s.SP.val = k.val + 1) :
    exec .ret s = .next (({ s with SP := ⟨k.val, by omega⟩ } : State).setPc (u16 (s.S[k.val].toNat + 2))) := by
  simp only [exec, execRet, s.pop_of_succ k h]

/-- R73 on a full stack. -/
theorem exec_call_full (nnn : Addr12) (h : s.SP.val = 16) : exec (.call nnn) s = .fault (.callStackOverflow s.pc) := by
  simp only [exec, execCall, (s.push_eq_none s.pc).mpr h]; rfl

/-- R73 with room on the stack. -/
theorem exec_call_next (nnn : Addr12) (h : s.SP.val < 16) :
    exec (.call nnn) s =
      .next (({ s with S := s.S.set s.SP.val s.pc h, SP := ⟨s.SP.val + 1, Nat.succ_lt_succ h⟩ } : State).setPc
        (target nnn)) := by
  simp only [exec, execCall, s.push_of_lt s.pc h]

/-- R101, R102 with a key index above 15. -/
theorem exec_skp_bad (x : RegIdx) (h : 15 < (s.reg x).toNat) :
    exec (.skp x) s = .fault (.keyIndexOutOfRange s.pc (s.reg x)) := by
  simp only [exec, execSkp, (s.keyLatch_eq_none _).mpr h]; rfl

theorem exec_sknp_bad (x : RegIdx) (h : 15 < (s.reg x).toNat) :
    exec (.sknp x) s = .fault (.keyIndexOutOfRange s.pc (s.reg x)) := by
  simp only [exec, execSknp, (s.keyLatch_eq_none _).mpr h]; rfl

/-- R101 with a key index 0..15. -/
theorem exec_skp_next (x : RegIdx) (h : (s.reg x).toNat < 16) :
    exec (.skp x) s = .next (s.skipIf s.KEY[(s.reg x).toNat]) := by
  simp only [exec, execSkp, s.keyLatch_of_lt _ h]

/-- R102 with a key index 0..15. -/
theorem exec_sknp_next (x : RegIdx) (h : (s.reg x).toNat < 16) :
    exec (.sknp x) s = .next (s.skipIf (!s.KEY[(s.reg x).toNat])) := by
  simp only [exec, execSknp, s.keyLatch_of_lt _ h]

/-- R104 with no key pressed: Waiting. -/
theorem exec_ldVxK_wait (x : RegIdx) (h : ∀ k : Fin 16, s.KEY[k.val] = false) : exec (.ldVxK x) s = .next s := by
  simp only [exec, execLdVxK, s.lowestKey_eq_none.mpr h]

/-- R104 with a lowest pressed key. -/
theorem exec_ldVxK_next (x : RegIdx) (k : Fin 16) (h : s.lowestKey = some k) :
    exec (.ldVxK x) s = .next (s.setReg x (u8 k.val)).nextInstr := by
  simp only [exec, execLdVxK, h]; rfl

/-- R94: the whole meaning. -/
theorem exec_ldBVx_eq (x : RegIdx) :
    exec (.ldBVx x) s = if s.I.toNat + 3 ≤ Config.memSize
      then .next (s.setM (s.M.writeBytes s.I.toNat (decimalDigits (s.reg x)))).nextInstr
      else .fault (.memoryAddressOutOfRange s.pc (max s.I.toNat 0x1000)) := by
  simp only [exec, execLdBVx, State.transfer_eq, OfNat.ofNat_ne_zero, false_or]

theorem upTo_ne_zero (x : RegIdx) : upTo x ≠ 0 := Nat.succ_ne_zero _

/-- R95: the whole meaning. -/
theorem exec_ldMemVx_eq (x : RegIdx) :
    exec (.ldMemVx x) s = if s.I.toNat + upTo x ≤ Config.memSize
      then .next (s.setM (s.M.writeBytes s.I.toNat (firstRegs s.V (upTo x)))).nextInstr
      else .fault (.memoryAddressOutOfRange s.pc (max s.I.toNat 0x1000)) := by
  simp only [exec, execLdMemVx, State.transfer_eq, upTo_ne_zero, false_or]

/-- R96: the whole meaning. -/
theorem exec_ldVxMem_eq (x : RegIdx) :
    exec (.ldVxMem x) s = if s.I.toNat + upTo x ≤ Config.memSize
      then .next (s.setV (loadRegs s.V s.M s.I.toNat (upTo x))).nextInstr
      else .fault (.memoryAddressOutOfRange s.pc (max s.I.toNat 0x1000)) := by
  simp only [exec, execLdVxMem, State.transfer_eq, upTo_ne_zero, false_or]

/-- The sprite of a DXYN on a state (R100). -/
def drawOf (x y : RegIdx) (n : Nibble) (s : State) : Blit :=
  drawSprite (s.reg x) (s.reg y) (s.M.readBytes s.I.toNat n.toNat) s.FB

/-- R100: the whole meaning. -/
theorem exec_drw_eq (x y : RegIdx) (n : Nibble) :
    exec (.drw x y n) s = if n.toNat = 0 ∨ s.I.toNat + n.toNat ≤ Config.memSize
      then .next (s.draw (drawOf x y n s))
      else .fault (.memoryAddressOutOfRange s.pc (max s.I.toNat 0x1000)) := by
  simp only [exec, execDrw, State.transfer_eq]; rfl

/-! ### The transfers, in the terms of their rules -/

/-- R94 with all three bytes in memory. -/
theorem exec_ldBVx_next (x : RegIdx) (h : s.I.toNat + 2 ≤ 0xFFF) :
    exec (.ldBVx x) s = .next (s.setM (s.M.writeBytes s.I.toNat (decimalDigits (s.reg x)))).nextInstr := by
  rw [exec_ldBVx_eq, if_pos (by unfold Config.memSize; omega)]

theorem exec_ldBVx_out (x : RegIdx) (h : 0xFFF < s.I.toNat + 2) :
    exec (.ldBVx x) s = .fault (.memoryAddressOutOfRange s.pc (max s.I.toNat 0x1000)) := by
  rw [exec_ldBVx_eq, if_neg (by unfold Config.memSize; omega)]

/-- R95 with every byte in memory. -/
theorem exec_ldMemVx_next (x : RegIdx) (h : s.I.toNat + x.toNat ≤ 0xFFF) :
    exec (.ldMemVx x) s = .next (s.setM (s.M.writeBytes s.I.toNat (firstRegs s.V (upTo x)))).nextInstr := by
  rw [exec_ldMemVx_eq, if_pos (by unfold Config.memSize upTo; omega)]

theorem exec_ldMemVx_out (x : RegIdx) (h : 0xFFF < s.I.toNat + x.toNat) :
    exec (.ldMemVx x) s = .fault (.memoryAddressOutOfRange s.pc (max s.I.toNat 0x1000)) := by
  rw [exec_ldMemVx_eq, if_neg (by unfold Config.memSize upTo; omega)]

/-- R96 with every byte in memory. -/
theorem exec_ldVxMem_next (x : RegIdx) (h : s.I.toNat + x.toNat ≤ 0xFFF) :
    exec (.ldVxMem x) s = .next (s.setV (loadRegs s.V s.M s.I.toNat (upTo x))).nextInstr := by
  rw [exec_ldVxMem_eq, if_pos (by unfold Config.memSize upTo; omega)]

theorem exec_ldVxMem_out (x : RegIdx) (h : 0xFFF < s.I.toNat + x.toNat) :
    exec (.ldVxMem x) s = .fault (.memoryAddressOutOfRange s.pc (max s.I.toNat 0x1000)) := by
  rw [exec_ldVxMem_eq, if_neg (by unfold Config.memSize upTo; omega)]

/-- R100 with every row of the sprite in memory. -/
theorem exec_drw_next (x y : RegIdx) (n : Nibble) (h : n.toNat = 0 ∨ s.I.toNat + n.toNat - 1 ≤ 0xFFF) :
    exec (.drw x y n) s = .next (s.draw (drawOf x y n s)) := by
  rw [exec_drw_eq, if_pos (by unfold Config.memSize; omega)]

theorem exec_drw_out (x y : RegIdx) (n : Nibble) (h0 : 0 < n.toNat) (h : 0xFFF < s.I.toNat + n.toNat - 1) :
    exec (.drw x y n) s = .fault (.memoryAddressOutOfRange s.pc (max s.I.toNat 0x1000)) := by
  rw [exec_drw_eq, if_neg (by unfold Config.memSize; omega)]

/-! ### The fields of a drawn state -/

@[simp] theorem State.draw_FB (d : Blit) : (s.draw d).FB = d.fb := rfl
@[simp] theorem State.draw_RD (d : Blit) : (s.draw d).RD = true := rfl
@[simp] theorem State.draw_I (d : Blit) : (s.draw d).I = s.I := rfl
@[simp] theorem State.draw_pc (d : Blit) : (s.draw d).pc = u16 (s.pc.toNat + 2) := rfl
@[simp] theorem State.draw_M (d : Blit) : (s.draw d).M = s.M := rfl
@[simp] theorem State.draw_S (d : Blit) : (s.draw d).S = s.S := rfl
@[simp] theorem State.draw_SP (d : Blit) : (s.draw d).SP = s.SP := rfl
@[simp] theorem State.draw_DT (d : Blit) : (s.draw d).DT = s.DT := rfl
@[simp] theorem State.draw_ST (d : Blit) : (s.draw d).ST = s.ST := rfl
@[simp] theorem State.draw_KEY (d : Blit) : (s.draw d).KEY = s.KEY := rfl
@[simp] theorem State.reg_draw (d : Blit) : (s.draw d).reg VF = collisionFlag d.hit :=
  (s.redraw d.fb).reg_setFlag (collisionFlag d.hit)

theorem State.reg_draw_other {d : Blit} {r : RegIdx} (h : r ≠ VF) : (s.draw d).reg r = s.reg r :=
  (s.redraw d.fb).reg_setFlag_other (collisionFlag d.hit) h

end Sys2Proof.Machine
end

