-- ==== Sys2Proof/Laws/Frames.lean ====
section
/-! SUPPORT. The frames of the shared updates (spec/40_step_cycle.md R64), and the invariant kept by each of them. -/

namespace Sys2Proof.Machine

/-! ### Frames -/

/-- Writing one register and going on changes that register and pc only. -/
theorem onlyRegsAndPc_writeReg (s : State) (x : RegIdx) (b : Byte) : OnlyRegsAndPc [x] s (s.setReg x b).nextInstr := by
  refine ⟨fun r hr => ?_, rfl, fun _ => rfl, ⟨rfl, fun _ => rfl⟩, ⟨fun _ _ => rfl, rfl⟩, ⟨rfl, rfl⟩, fun _ => rfl⟩
  rw [State.reg_nextInstr, State.reg_setReg_other]
  simpa using hr

/-- Writing one register, then VF, and going on changes those two and pc only. -/
theorem onlyRegsAndPc_writeRegFlag (s : State) (x : RegIdx) (b f : Byte) :
    OnlyRegsAndPc [x, VF] s ((s.setReg x b).setFlag f).nextInstr := by
  refine ⟨fun r hr => ?_, rfl, fun _ => rfl, ⟨rfl, fun _ => rfl⟩, ⟨fun _ _ => rfl, rfl⟩, ⟨rfl, rfl⟩, fun _ => rfl⟩
  simp only [List.mem_cons, List.not_mem_nil, or_false, not_or] at hr
  rw [State.reg_nextInstr, State.reg_setFlag_other _ _ hr.2, State.reg_setReg_other _ _ hr.1]

/-- Setting pc changes pc only. -/
theorem onlyRegsAndPc_setPc (s : State) (w : Word) : OnlyRegsAndPc [] s (s.setPc w) :=
  ⟨fun _ _ => rfl, rfl, fun _ => rfl, ⟨rfl, fun _ => rfl⟩, ⟨fun _ _ => rfl, rfl⟩, ⟨rfl, rfl⟩, fun _ => rfl⟩

/-- A skip changes pc only. -/
theorem onlyRegsAndPc_skipIf (s : State) (c : Bool) : OnlyRegsAndPc [] s (s.skipIf c) := by
  cases c <;> exact onlyRegsAndPc_setPc s _

/-- A skip moves pc by 4 when its condition holds, by 2 otherwise (R63). -/
theorem pcPlus_skipIf (s : State) (c : Bool) : PcPlus (if c then 4 else 2) s (s.skipIf c) := by
  simp [PcPlus]

/-- Going on moves pc by 2 (R63). -/
theorem pcPlus_nextInstr (s t : State) (h : t.pc = s.pc) : PcPlus 2 s t.nextInstr := by
  simp [PcPlus, h]

/-! ### The invariant -/

/-- An instruction fetched from 0..4094 that goes on to the next leaves pc in bounds. -/
theorem pcInv_of_pcPlus {s t : State} {n : Nat} (hs : s.pc.toNat ≤ 4094) (hn : n ≤ 4) (h : PcPlus n s t) : PcInv t := by
  unfold PcInv PcPlus at *
  omega

/-- The stack part of the invariant only looks at the stack. -/
theorem stackInv_of_same {s t : State} (hS : t.S = s.S) (hSP : t.SP = s.SP) (h : StackInv s) : StackInv t := by
  intro k hk
  simp only [hS, hSP] at hk ⊢
  exact h k hk

end Sys2Proof.Machine
end

