-- ==== Sys2Proof/Laws/HostOps.lean ====
section
/-! SUPPORT. What the pieces of the host interface do, said once (spec/60_exceptions.md R116 to R122, R130). -/

namespace Sys2Proof

/-- A ROM fits exactly when it has at most 3584 bytes (R130). -/
theorem romFits_eq_true (bytes : List Byte) : romFits bytes = true ↔ bytes.length ≤ 3584 := decide_eq_true_iff

theorem romFits_eq_false (bytes : List Byte) : romFits bytes = false ↔ 3584 < bytes.length := by
  rw [← Bool.not_eq_true, romFits_eq_true, Nat.not_le]

namespace Machine

/-- A tick takes 1 from a timer and never goes below 0 (R117). -/
@[simp] theorem ticked_toNat (t : Byte) : (ticked t).toNat = t.toNat - 1 := by
  have := t.isLt
  unfold ticked
  split
  · rw [u8_toNat]; omega
  · omega

/-- A key write exists exactly for the indices 0..15 (R119). -/
theorem State.setKey_of_lt (s : State) {k : Nat} (d : Bool) (h : k < 16) :
    s.setKey k d = some { s with KEY := s.KEY.set k d h } := by
  simp only [State.setKey, h, dite_true]

theorem State.setKey_of_ge (s : State) {k : Nat} (d : Bool) (h : 15 < k) : s.setKey k d = none := by
  simp only [State.setKey, Nat.not_lt.mpr h, dite_false]

/-- Every address outside a ROM reads as before its copy (R130). -/
theorem State.loadRom_read_outside (s : State) (bytes : List Byte) {a : Nat}
    (h : ¬ (0x200 ≤ a ∧ a < 0x200 + bytes.length)) : (s.loadRom bytes).M.read a = s.M.read a :=
  Memory.read_writeBytes_outside _ _ _ h

/-- The bytes of a ROM stand from 0x200 on (R130). -/
theorem State.loadRom_read_inside (s : State) (bytes : List Byte) {k : Nat} (h : k < bytes.length) :
    (s.loadRom bytes).M.read (0x200 + k) = bytes[k] :=
  Memory.read_writeBytes_inside _ _ _ h

end Machine

end Sys2Proof
end

