-- ==== Sys2Proof/Laws/PerInstr.lean ====
section
/-! SUPPORT. Laws stated of every instruction, one lemma per constructor. RowEncoding: the word of an instruction matches
its own row of the opcode map (spec/30_encoding.md R52), with every operand at every value. -/

namespace Sys2Proof.Laws.RowEncoding

/-- The word the encoder gives has the fixed bits of the instruction's own row of R52. -/
def Statement (i : Instr) : Prop := i.wellFormed = true

theorem cls : Statement (.cls) := rfl

theorem ret : Statement (.ret) := rfl

theorem jp (nnn : Addr12) : Statement (.jp nnn) := by
  show (wordGNNN 0x1#4 nnn &&& 0xF000#16 == 0x1000#16) = true
  rw [wordGNNN_mask]; rfl

theorem call (nnn : Addr12) : Statement (.call nnn) := by
  show (wordGNNN 0x2#4 nnn &&& 0xF000#16 == 0x2000#16) = true
  rw [wordGNNN_mask]; rfl

theorem seImm (x : RegIdx) (nn : Byte) : Statement (.seImm x nn) := by
  show (wordGXNN 0x3#4 x nn &&& 0xF000#16 == 0x3000#16) = true
  rw [wordGXNN_mask]; rfl

theorem sneImm (x : RegIdx) (nn : Byte) : Statement (.sneImm x nn) := by
  show (wordGXNN 0x4#4 x nn &&& 0xF000#16 == 0x4000#16) = true
  rw [wordGXNN_mask]; rfl

theorem seReg (x y : RegIdx) : Statement (.seReg x y) := by
  show (wordGXYN 0x5#4 x y 0x0#4 &&& 0xF00F#16 == 0x5000#16) = true
  rw [wordGXYN_maskLow]; rfl

theorem ldImm (x : RegIdx) (nn : Byte) : Statement (.ldImm x nn) := by
  show (wordGXNN 0x6#4 x nn &&& 0xF000#16 == 0x6000#16) = true
  rw [wordGXNN_mask]; rfl

theorem addImm (x : RegIdx) (nn : Byte) : Statement (.addImm x nn) := by
  show (wordGXNN 0x7#4 x nn &&& 0xF000#16 == 0x7000#16) = true
  rw [wordGXNN_mask]; rfl

theorem ldReg (x y : RegIdx) : Statement (.ldReg x y) := by
  show (wordGXYN 0x8#4 x y 0x0#4 &&& 0xF00F#16 == 0x8000#16) = true
  rw [wordGXYN_maskLow]; rfl

theorem or (x y : RegIdx) : Statement (.or x y) := by
  show (wordGXYN 0x8#4 x y 0x1#4 &&& 0xF00F#16 == 0x8001#16) = true
  rw [wordGXYN_maskLow]; rfl

theorem and (x y : RegIdx) : Statement (.and x y) := by
  show (wordGXYN 0x8#4 x y 0x2#4 &&& 0xF00F#16 == 0x8002#16) = true
  rw [wordGXYN_maskLow]; rfl

theorem xor (x y : RegIdx) : Statement (.xor x y) := by
  show (wordGXYN 0x8#4 x y 0x3#4 &&& 0xF00F#16 == 0x8003#16) = true
  rw [wordGXYN_maskLow]; rfl

theorem addReg (x y : RegIdx) : Statement (.addReg x y) := by
  show (wordGXYN 0x8#4 x y 0x4#4 &&& 0xF00F#16 == 0x8004#16) = true
  rw [wordGXYN_maskLow]; rfl

theorem sub (x y : RegIdx) : Statement (.sub x y) := by
  show (wordGXYN 0x8#4 x y 0x5#4 &&& 0xF00F#16 == 0x8005#16) = true
  rw [wordGXYN_maskLow]; rfl

theorem shr (x y : RegIdx) : Statement (.shr x y) := by
  show (wordGXYN 0x8#4 x y 0x6#4 &&& 0xF00F#16 == 0x8006#16) = true
  rw [wordGXYN_maskLow]; rfl

theorem subn (x y : RegIdx) : Statement (.subn x y) := by
  show (wordGXYN 0x8#4 x y 0x7#4 &&& 0xF00F#16 == 0x8007#16) = true
  rw [wordGXYN_maskLow]; rfl

theorem shl (x y : RegIdx) : Statement (.shl x y) := by
  show (wordGXYN 0x8#4 x y 0xE#4 &&& 0xF00F#16 == 0x800E#16) = true
  rw [wordGXYN_maskLow]; rfl

theorem sneReg (x y : RegIdx) : Statement (.sneReg x y) := by
  show (wordGXYN 0x9#4 x y 0x0#4 &&& 0xF00F#16 == 0x9000#16) = true
  rw [wordGXYN_maskLow]; rfl

theorem ldI (nnn : Addr12) : Statement (.ldI nnn) := by
  show (wordGNNN 0xA#4 nnn &&& 0xF000#16 == 0xA000#16) = true
  rw [wordGNNN_mask]; rfl

theorem jpV0 (nnn : Addr12) : Statement (.jpV0 nnn) := by
  show (wordGNNN 0xB#4 nnn &&& 0xF000#16 == 0xB000#16) = true
  rw [wordGNNN_mask]; rfl

theorem rnd (x : RegIdx) (nn : Byte) : Statement (.rnd x nn) := by
  show (wordGXNN 0xC#4 x nn &&& 0xF000#16 == 0xC000#16) = true
  rw [wordGXNN_mask]; rfl

theorem drw (x y : RegIdx) (n : Nibble) : Statement (.drw x y n) := by
  show (wordGXYN 0xD#4 x y n &&& 0xF000#16 == 0xD000#16) = true
  rw [wordGXYN_mask]; rfl

theorem skp (x : RegIdx) : Statement (.skp x) := by
  show (wordGXNN 0xE#4 x 0x9E#8 &&& 0xF0FF#16 == 0xE09E#16) = true
  rw [wordGXNN_maskLow]; rfl

theorem sknp (x : RegIdx) : Statement (.sknp x) := by
  show (wordGXNN 0xE#4 x 0xA1#8 &&& 0xF0FF#16 == 0xE0A1#16) = true
  rw [wordGXNN_maskLow]; rfl

theorem ldVxDt (x : RegIdx) : Statement (.ldVxDt x) := by
  show (wordGXNN 0xF#4 x 0x07#8 &&& 0xF0FF#16 == 0xF007#16) = true
  rw [wordGXNN_maskLow]; rfl

theorem ldVxK (x : RegIdx) : Statement (.ldVxK x) := by
  show (wordGXNN 0xF#4 x 0x0A#8 &&& 0xF0FF#16 == 0xF00A#16) = true
  rw [wordGXNN_maskLow]; rfl

theorem ldDtVx (x : RegIdx) : Statement (.ldDtVx x) := by
  show (wordGXNN 0xF#4 x 0x15#8 &&& 0xF0FF#16 == 0xF015#16) = true
  rw [wordGXNN_maskLow]; rfl

theorem ldStVx (x : RegIdx) : Statement (.ldStVx x) := by
  show (wordGXNN 0xF#4 x 0x18#8 &&& 0xF0FF#16 == 0xF018#16) = true
  rw [wordGXNN_maskLow]; rfl

theorem addIVx (x : RegIdx) : Statement (.addIVx x) := by
  show (wordGXNN 0xF#4 x 0x1E#8 &&& 0xF0FF#16 == 0xF01E#16) = true
  rw [wordGXNN_maskLow]; rfl

theorem ldFVx (x : RegIdx) : Statement (.ldFVx x) := by
  show (wordGXNN 0xF#4 x 0x29#8 &&& 0xF0FF#16 == 0xF029#16) = true
  rw [wordGXNN_maskLow]; rfl

theorem ldBVx (x : RegIdx) : Statement (.ldBVx x) := by
  show (wordGXNN 0xF#4 x 0x33#8 &&& 0xF0FF#16 == 0xF033#16) = true
  rw [wordGXNN_maskLow]; rfl

theorem ldMemVx (x : RegIdx) : Statement (.ldMemVx x) := by
  show (wordGXNN 0xF#4 x 0x55#8 &&& 0xF0FF#16 == 0xF055#16) = true
  rw [wordGXNN_maskLow]; rfl

theorem ldVxMem (x : RegIdx) : Statement (.ldVxMem x) := by
  show (wordGXNN 0xF#4 x 0x65#8 &&& 0xF0FF#16 == 0xF065#16) = true
  rw [wordGXNN_maskLow]; rfl

end Sys2Proof.Laws.RowEncoding

namespace Sys2Proof

/-- Every instruction is well formed: its word matches its own row of R52. -/
theorem Instr.wellFormed_eq_true : ∀ i : Instr, i.wellFormed = true
  | .cls => Laws.RowEncoding.cls
  | .ret => Laws.RowEncoding.ret
  | .jp nnn => Laws.RowEncoding.jp nnn
  | .call nnn => Laws.RowEncoding.call nnn
  | .seImm x nn => Laws.RowEncoding.seImm x nn
  | .sneImm x nn => Laws.RowEncoding.sneImm x nn
  | .seReg x y => Laws.RowEncoding.seReg x y
  | .ldImm x nn => Laws.RowEncoding.ldImm x nn
  | .addImm x nn => Laws.RowEncoding.addImm x nn
  | .ldReg x y => Laws.RowEncoding.ldReg x y
  | .or x y => Laws.RowEncoding.or x y
  | .and x y => Laws.RowEncoding.and x y
  | .xor x y => Laws.RowEncoding.xor x y
  | .addReg x y => Laws.RowEncoding.addReg x y
  | .sub x y => Laws.RowEncoding.sub x y
  | .shr x y => Laws.RowEncoding.shr x y
  | .subn x y => Laws.RowEncoding.subn x y
  | .shl x y => Laws.RowEncoding.shl x y
  | .sneReg x y => Laws.RowEncoding.sneReg x y
  | .ldI nnn => Laws.RowEncoding.ldI nnn
  | .jpV0 nnn => Laws.RowEncoding.jpV0 nnn
  | .rnd x nn => Laws.RowEncoding.rnd x nn
  | .drw x y n => Laws.RowEncoding.drw x y n
  | .skp x => Laws.RowEncoding.skp x
  | .sknp x => Laws.RowEncoding.sknp x
  | .ldVxDt x => Laws.RowEncoding.ldVxDt x
  | .ldVxK x => Laws.RowEncoding.ldVxK x
  | .ldDtVx x => Laws.RowEncoding.ldDtVx x
  | .ldStVx x => Laws.RowEncoding.ldStVx x
  | .addIVx x => Laws.RowEncoding.addIVx x
  | .ldFVx x => Laws.RowEncoding.ldFVx x
  | .ldBVx x => Laws.RowEncoding.ldBVx x
  | .ldMemVx x => Laws.RowEncoding.ldMemVx x
  | .ldVxMem x => Laws.RowEncoding.ldVxMem x

/-- The row of an instruction stands in the opcode map and accepts its word. -/
theorem Instr.row_accepts (i : Instr) : ∃ r ∈ opcodeTable, i.row = some r ∧ r.accepts (encode i) = true := by
  have h := i.wellFormed_eq_true
  unfold Instr.wellFormed at h
  split at h
  · exact ⟨_, List.mem_of_getElem? ‹_›, ‹_›, h⟩
  · cases h

end Sys2Proof
end

