-- ==== Sys2Proof/Tests/Slice0.lean ====
section
/-! SUPPORT. Small tests. Expected values come from spec/95_test_vectors.md and from the tables of spec/30_encoding.md, not
from the model; then, for every statement with hypotheses, a state and operands that meet them. -/

namespace Sys2Proof.Tests

open Sys2Proof.Machine

/-- The next state of an answer; the reset state where there is none. -/
def ran : Result → State
  | .next t => t
  | .fault _ => State.reset
  | .refused _ => State.reset

/-- The fault of an answer. -/
def fell : Result → Option Fault
  | .next _ => none
  | .fault f => some f
  | .refused _ => none

/-- The reset state with a register set. -/
def with1 (x : RegIdx) (a : Byte) : State := State.reset.setReg x a

/-- The reset state with two registers set. -/
def with2 (x : RegIdx) (a : Byte) (y : RegIdx) (b : Byte) : State := (with1 x a).setReg y b

/-- The reset state with `n` stack entries, all `w`. -/
def stacked (n : Fin 17) (w : Word) : State := { State.reset with SP := n, S := Vector.replicate 16 w }

/-- The reset state with one key pressed. -/
def pressed (k : Fin 16) : State := { State.reset with KEY := State.reset.KEY.set k.val true }

/-! ### Decoding: one word of every row, its bits written out from the row's encoding -/

/-- 00E0 (R52). -/
theorem test_decode_cls : decode 0b0000000011100000#16 = .ok .cls := by decide

/-- 00EE (R52). -/
theorem test_decode_ret : decode 0b0000000011101110#16 = .ok .ret := by decide

/-- 1NNN (R52). -/
theorem test_decode_jp : decode 0b0001100110110110#16 = .ok (.jp 0x9B6#12) := by decide

/-- 2NNN (R52). -/
theorem test_decode_call : decode 0b0010100110110110#16 = .ok (.call 0x9B6#12) := by decide

/-- 3XNN (R52). -/
theorem test_decode_seImm : decode 0b0011101011000011#16 = .ok (.seImm 0xA#4 0xC3#8) := by decide

/-- 4XNN (R52). -/
theorem test_decode_sneImm : decode 0b0100101011000011#16 = .ok (.sneImm 0xA#4 0xC3#8) := by decide

/-- 5XY0 (R52). -/
theorem test_decode_seReg : decode 0b0101101001010000#16 = .ok (.seReg 0xA#4 0x5#4) := by decide

/-- 6XNN (R52). -/
theorem test_decode_ldImm : decode 0b0110101011000011#16 = .ok (.ldImm 0xA#4 0xC3#8) := by decide

/-- 7XNN (R52). -/
theorem test_decode_addImm : decode 0b0111101011000011#16 = .ok (.addImm 0xA#4 0xC3#8) := by decide

/-- 8XY0 (R52). -/
theorem test_decode_ldReg : decode 0b1000101001010000#16 = .ok (.ldReg 0xA#4 0x5#4) := by decide

/-- 8XY1 (R52). -/
theorem test_decode_or : decode 0b1000101001010001#16 = .ok (.or 0xA#4 0x5#4) := by decide

/-- 8XY2 (R52). -/
theorem test_decode_and : decode 0b1000101001010010#16 = .ok (.and 0xA#4 0x5#4) := by decide

/-- 8XY3 (R52). -/
theorem test_decode_xor : decode 0b1000101001010011#16 = .ok (.xor 0xA#4 0x5#4) := by decide

/-- 8XY4 (R52). -/
theorem test_decode_addReg : decode 0b1000101001010100#16 = .ok (.addReg 0xA#4 0x5#4) := by decide

/-- 8XY5 (R52). -/
theorem test_decode_sub : decode 0b1000101001010101#16 = .ok (.sub 0xA#4 0x5#4) := by decide

/-- 8XY6 (R52). -/
theorem test_decode_shr : decode 0b1000101001010110#16 = .ok (.shr 0xA#4 0x5#4) := by decide

/-- 8XY7 (R52). -/
theorem test_decode_subn : decode 0b1000101001010111#16 = .ok (.subn 0xA#4 0x5#4) := by decide

/-- 8XYE (R52). -/
theorem test_decode_shl : decode 0b1000101001011110#16 = .ok (.shl 0xA#4 0x5#4) := by decide

/-- 9XY0 (R52). -/
theorem test_decode_sneReg : decode 0b1001101001010000#16 = .ok (.sneReg 0xA#4 0x5#4) := by decide

/-- ANNN (R52). -/
theorem test_decode_ldI : decode 0b1010100110110110#16 = .ok (.ldI 0x9B6#12) := by decide

/-- BNNN (R52). -/
theorem test_decode_jpV0 : decode 0b1011100110110110#16 = .ok (.jpV0 0x9B6#12) := by decide

/-- CXNN (R52). -/
theorem test_decode_rnd : decode 0b1100101011000011#16 = .ok (.rnd 0xA#4 0xC3#8) := by decide

/-- DXYN (R52). -/
theorem test_decode_drw : decode 0b1101101001010111#16 = .ok (.drw 0xA#4 0x5#4 0x7#4) := by decide

/-- EX9E (R52). -/
theorem test_decode_skp : decode 0b1110101010011110#16 = .ok (.skp 0xA#4) := by decide

/-- EXA1 (R52). -/
theorem test_decode_sknp : decode 0b1110101010100001#16 = .ok (.sknp 0xA#4) := by decide

/-- FX07 (R52). -/
theorem test_decode_ldVxDt : decode 0b1111101000000111#16 = .ok (.ldVxDt 0xA#4) := by decide

/-- FX0A (R52). -/
theorem test_decode_ldVxK : decode 0b1111101000001010#16 = .ok (.ldVxK 0xA#4) := by decide

/-- FX15 (R52). -/
theorem test_decode_ldDtVx : decode 0b1111101000010101#16 = .ok (.ldDtVx 0xA#4) := by decide

/-- FX18 (R52). -/
theorem test_decode_ldStVx : decode 0b1111101000011000#16 = .ok (.ldStVx 0xA#4) := by decide

/-- FX1E (R52). -/
theorem test_decode_addIVx : decode 0b1111101000011110#16 = .ok (.addIVx 0xA#4) := by decide

/-- FX29 (R52). -/
theorem test_decode_ldFVx : decode 0b1111101000101001#16 = .ok (.ldFVx 0xA#4) := by decide

/-- FX33 (R52). -/
theorem test_decode_ldBVx : decode 0b1111101000110011#16 = .ok (.ldBVx 0xA#4) := by decide

/-- FX55 (R52). -/
theorem test_decode_ldMemVx : decode 0b1111101001010101#16 = .ok (.ldMemVx 0xA#4) := by decide

/-- FX65 (R52). -/
theorem test_decode_ldVxMem : decode 0b1111101001100101#16 = .ok (.ldVxMem 0xA#4) := by decide

/-! ### WellFormed: an ill-formed word of each class of R58 is refused, by the opcode map and by the decoder -/

theorem test_illformed_0000 : legalWord 0x0000#16 = false ∧ decode 0x0000#16 = .error (.unimplementedOpcode 0x0000#16) := by decide

theorem test_illformed_0NNN : legalWord 0x0123#16 = false ∧ decode 0x0123#16 = .error (.unimplementedOpcode 0x0123#16) := by decide

theorem test_illformed_5XYn : legalWord 0x5121#16 = false ∧ decode 0x5121#16 = .error (.unimplementedOpcode 0x5121#16) := by decide

theorem test_illformed_9XYn : legalWord 0x9121#16 = false ∧ decode 0x9121#16 = .error (.unimplementedOpcode 0x9121#16) := by decide

theorem test_illformed_8XYn_8 : legalWord 0x8128#16 = false ∧ decode 0x8128#16 = .error (.unimplementedOpcode 0x8128#16) := by decide

theorem test_illformed_8XYn_D : legalWord 0x812D#16 = false ∧ decode 0x812D#16 = .error (.unimplementedOpcode 0x812D#16) := by decide

theorem test_illformed_8XYn_F : legalWord 0x812F#16 = false ∧ decode 0x812F#16 = .error (.unimplementedOpcode 0x812F#16) := by decide

theorem test_illformed_EXNN : legalWord 0xE5FF#16 = false ∧ decode 0xE5FF#16 = .error (.unimplementedOpcode 0xE5FF#16) := by decide

theorem test_illformed_FXNN : legalWord 0xF0FF#16 = false ∧ decode 0xF0FF#16 = .error (.unimplementedOpcode 0xF0FF#16) := by decide

/-- R130: 3584 bytes fit, 3585 do not, none fit. -/
theorem test_illformed_rom :
    romFits (List.replicate 3584 0) = true ∧ romFits (List.replicate 3585 0) = false ∧ romFits [] = true :=
  ⟨(romFits_eq_true _).mpr (by rw [List.length_replicate]), (romFits_eq_false _).mpr (by rw [List.length_replicate]; omega),
    (romFits_eq_true _).mpr (by decide)⟩

/-- The word a row's instruction is encoded as (R52). -/
theorem test_encode : encode (.drw 0xF#4 0x0#4 0x1#4) = 0xDF01#16 ∧ encode (.shl 0x4#4 0x0#4) = 0x840E#16 ∧
    encode (.ldBVx 0x0#4) = 0xF033#16 ∧ encode (.call 0x300#12) = 0x2300#16 := by decide

/-- The table's own numbering of bits (log 18). -/
theorem test_table_word : decodeTableWord 16 0x8124 = some (.addReg 0x1#4 0x2#4) ∧ decodeTableWord 16 0x8128 = none := by
  decide

/-! ### One step of each instruction (spec/95_test_vectors.md section 2) -/

/-- clears (1,1), sets RD. -/
theorem test_cls : let s := { State.reset with FB := State.reset.FB.flip 1 1 }
    let t := ran (exec .cls s)
    s.FB.pixel 1 1 = true ∧ t.FB.pixel 1 1 = false ∧ t.RD = true ∧ t.pc = 0x202#16 := by decide

/-- SP = 1, S[0] = 0x300. -/
theorem test_ret : let t := ran (exec .ret (stacked 1 0x300#16)); t.SP = 0 ∧ t.pc = 0x302#16 := by decide

/-- empty stack. -/
theorem test_ret_empty : fell (exec .ret State.reset) = some (.callStackUnderflow 0x200#16) := by decide

/-- odd target accepted. -/
theorem test_jp_odd : (ran (exec (.jp 0x201#12) State.reset)).pc = 0x201#16 := by decide

/-- 16th entry. -/
theorem test_call_last : let t := ran (exec (.call 0x300#12) (stacked 15 0#16)); t.SP = 16 ∧ t.S[15] = 0x200#16 ∧ t.pc = 0x300#16 := by decide

/-- stack full. -/
theorem test_call_full : fell (exec (.call 0x300#12) (stacked 16 0#16)) = some (.callStackOverflow 0x200#16) := by decide

/-- BFFF with V0 = 0xFF. -/
theorem test_jpV0_unmasked : (ran (exec (.jpV0 0xFFF#12) (with1 0x0#4 0xFF#8))).pc = 0x10FE#16 := by decide

/-- B5FF uses V0, not V5. -/
theorem test_jpV0_not_vx : (ran (exec (.jpV0 0x5FF#12) (with2 0x0#4 0x01#8 0x5#4 0x40#8))).pc = 0x600#16 := by decide

/-- 3310 with V3 = 0x10 and 0x11. -/
theorem test_seImm : (ran (exec (.seImm 0x3#4 0x10#8) (with1 0x3#4 0x10#8))).pc = 0x204#16 ∧
    (ran (exec (.seImm 0x3#4 0x10#8) (with1 0x3#4 0x11#8))).pc = 0x202#16 := by decide

/-- 4310 with V3 = 0x11 and 0x10. -/
theorem test_sneImm : (ran (exec (.sneImm 0x3#4 0x10#8) (with1 0x3#4 0x11#8))).pc = 0x204#16 ∧
    (ran (exec (.sneImm 0x3#4 0x10#8) (with1 0x3#4 0x10#8))).pc = 0x202#16 := by decide

/-- 5120 with equal and different registers. -/
theorem test_seReg : (ran (exec (.seReg 0x1#4 0x2#4) (with2 0x1#4 7 0x2#4 7))).pc = 0x204#16 ∧
    (ran (exec (.seReg 0x1#4 0x2#4) (with2 0x1#4 7 0x2#4 8))).pc = 0x202#16 := by decide

/-- 9120 with different and equal registers. -/
theorem test_sneReg : (ran (exec (.sneReg 0x1#4 0x2#4) (with2 0x1#4 7 0x2#4 8))).pc = 0x204#16 ∧
    (ran (exec (.sneReg 0x1#4 0x2#4) (with2 0x1#4 7 0x2#4 7))).pc = 0x202#16 := by decide

/-- 6F07: VF as destination. -/
theorem test_ldImm : let t := ran (exec (.ldImm 0xF#4 0x07#8) State.reset); t.reg VF = 0x07#8 ∧ t.pc = 0x202#16 := by decide

/-- 7203 wraps, VF unchanged. -/
theorem test_addImm : let t := ran (exec (.addImm 0x2#4 0x03#8) (with2 0x2#4 0xFE#8 VF 1)); t.reg 0x2#4 = 1 ∧ t.reg VF = 1 := by decide

/-- 8010. -/
theorem test_ldReg : (ran (exec (.ldReg 0x0#4 0x1#4) (with1 0x1#4 9))).reg 0x0#4 = 9 := by decide

/-- 8011, VF not reset. -/
theorem test_or : let t := ran (exec (.or 0x0#4 0x1#4) ((with2 0x0#4 0x0F#8 0x1#4 0xF0#8).setReg VF 5)); t.reg 0x0#4 = 0xFF#8 ∧ t.reg VF = 5 := by decide

/-- 8012. -/
theorem test_and : (ran (exec (.and 0x0#4 0x1#4) (with2 0x0#4 0x3C#8 0x1#4 0x0F#8))).reg 0x0#4 = 0x0C#8 := by decide

/-- 8013. -/
theorem test_xor : (ran (exec (.xor 0x0#4 0x1#4) (with2 0x0#4 0x3C#8 0x1#4 0x0F#8))).reg 0x0#4 = 0x33#8 := by decide

/-- 8124: 250 + 10 (source example E3). -/
theorem test_addReg : let t := ran (exec (.addReg 0x1#4 0x2#4) (with2 0x1#4 250 0x2#4 10)); t.reg 0x1#4 = 4 ∧ t.reg VF = 1 := by decide

/-- 8F14: VF gets the carry; 81F4: the old VF is the operand. -/
theorem test_addReg_vf : (ran (exec (.addReg VF 0x1#4) (with2 VF 0xC8#8 0x1#4 0x64#8))).reg VF = 1 ∧
    (ran (exec (.addReg 0x1#4 VF) (with2 VF 1 0x1#4 0xFF#8))).reg 0x1#4 = 0 := by decide

/-- 8125: 5 - 10 (source example E4). -/
theorem test_sub : let t := ran (exec (.sub 0x1#4 0x2#4) (with2 0x1#4 5 0x2#4 10)); t.reg 0x1#4 = 0xFB#8 ∧ t.reg VF = 0 := by decide

/-- 8125: equal operands. -/
theorem test_sub_equal : let t := ran (exec (.sub 0x1#4 0x2#4) (with2 0x1#4 7 0x2#4 7)); t.reg 0x1#4 = 0 ∧ t.reg VF = 1 := by decide

/-- 8456: Vy ignored; 8406: bit 0 out. -/
theorem test_shr : (ran (exec (.shr 0x4#4 0x5#4) (with2 0x4#4 0x80#8 0x5#4 0xFF#8))).reg 0x4#4 = 0x40#8 ∧
    (ran (exec (.shr 0x4#4 0x0#4) (with1 0x4#4 5))).reg VF = 1 := by decide

/-- 8127: 10 from 5. -/
theorem test_subn : let t := ran (exec (.subn 0x1#4 0x2#4) (with2 0x1#4 10 0x2#4 5)); t.reg 0x1#4 = 0xFB#8 ∧ t.reg VF = 0 := by decide

/-- 840E: 0x81. -/
theorem test_shl : let t := ran (exec (.shl 0x4#4 0x0#4) (with1 0x4#4 0x81#8)); t.reg 0x4#4 = 2 ∧ t.reg VF = 1 := by decide

/-- C30F with rnd = 0xA7. -/
theorem test_rnd : (ran (rndWith 0xA7#8 0x3#4 0x0F#8 State.reset)).reg 0x3#4 = 0x07#8 := by decide

/-- A2F0. -/
theorem test_ldI : (ran (exec (.ldI 0x2F0#12) (State.reset.setI 0xF000#16))).I = 0x2F0#16 := by decide

/-- F21E: 0xFFE + 1 and 0xFFFF + 1. -/
theorem test_addIVx : (ran (exec (.addIVx 0x2#4) ((with1 0x2#4 1).setI 0xFFE#16))).reg VF = 0 ∧
    (ran (exec (.addIVx 0x2#4) ((with1 0x2#4 1).setI 0xFFFF#16))).I = 0 ∧
    (ran (exec (.addIVx 0x2#4) ((with1 0x2#4 1).setI 0xFFFF#16))).reg VF = 1 := by decide

/-- FF1E: VF is operand and flag. -/
theorem test_addIVx_vf : let t := ran (exec (.addIVx VF) ((with1 VF 0x20#8).setI 0x100#16)); t.I = 0x120#16 ∧ t.reg VF = 0 := by decide

/-- F029 with 0xFF: not masked. -/
theorem test_ldFVx : (ran (exec (.ldFVx 0x0#4) (with1 0x0#4 0xFF#8))).I = 0x4FB#16 := by decide

/-- F033: 254 at 0x300. -/
theorem test_ldBVx : (ran (exec (.ldBVx 0x0#4) ((with1 0x0#4 0xFE#8).setI 0x300#16))).M.readBytes 0x300 3 = [2, 5, 4] := by decide

/-- F033 at 0xFFE. -/
theorem test_ldBVx_out : fell (exec (.ldBVx 0x0#4) (State.reset.setI 0xFFE#16)) = some (.memoryAddressOutOfRange 0x200#16 0x1000) := by decide

/-- F155 stores two bytes, I unchanged. -/
theorem test_ldMemVx : let t := ran (exec (.ldMemVx 0x1#4) (((with2 0x0#4 0x12#8 0x1#4 0x34#8).setReg 0x2#4 0x56#8).setI 0x300#16))
    t.M.readBytes 0x300 3 = [0x12, 0x34, 0] ∧ t.I = 0x300#16 := by decide

/-- F355 at 0xFFD. -/
theorem test_ldMemVx_out : fell (exec (.ldMemVx 0x3#4) (State.reset.setI 0xFFD#16)) = some (.memoryAddressOutOfRange 0x200#16 0x1000) := by decide

/-- FF65 loads VF. -/
theorem test_ldVxMem : (ran (exec (.ldVxMem VF) ((State.reset.setM (State.reset.M.write 0x30F 0xAA#8)).setI 0x300#16))).reg VF = 0xAA#8 := by decide

/-- F065 at 0x1000. -/
theorem test_ldVxMem_out : fell (exec (.ldVxMem 0x0#4) (State.reset.setI 0x1000#16)) = some (.memoryAddressOutOfRange 0x200#16 0x1000) := by decide

/-- D011 at (0x45, 0x21): glyph row F0 lands on (5,1)..(8,1). -/
theorem test_drw_wrap : let t := ran (exec (.drw 0x0#4 0x1#4 0x1#4) (with2 0x0#4 0x45#8 0x1#4 0x21#8))
    t.FB = (((State.reset.FB.flip 5 1).flip 6 1).flip 7 1).flip 8 1 ∧ t.reg VF = 0 ∧ t.RD = true := by decide

/-- D011 over a lit (0,0). -/
theorem test_drw_collision : let t := ran (exec (.drw 0x0#4 0x1#4 0x1#4) { State.reset with FB := State.reset.FB.flip 0 0 })
    t.FB.pixel 0 0 = false ∧ t.FB.pixel 3 0 = true ∧ t.FB.pixel 4 0 = false ∧ t.reg VF = 1 := by decide

/-- E59E with key A down. -/
theorem test_skp : (ran (exec (.skp 0x5#4) ((pressed 0xA).setReg 0x5#4 0x0A#8))).pc = 0x204#16 := by decide

/-- E59E with V5 = 0x10. -/
theorem test_skp_bad : fell (exec (.skp 0x5#4) ((pressed 0).setReg 0x5#4 0x10#8)) = some (.keyIndexOutOfRange 0x200#16 0x10#8) := by decide

/-- E5A1 with key A up. -/
theorem test_sknp : (ran (exec (.sknp 0x5#4) (with1 0x5#4 0x0A#8))).pc = 0x204#16 := by decide

/-- F307. -/
theorem test_ldVxDt : (ran (exec (.ldVxDt 0x3#4) (State.reset.setDT 0x3C#8))).reg 0x3#4 = 0x3C#8 := by decide

/-- F20A with keys 7 and 9 down. -/
theorem test_ldVxK : let t := ran (exec (.ldVxK 0x2#4) { pressed 9 with KEY := (pressed 9).KEY.set 7 true }); t.reg 0x2#4 = 7 ∧ t.pc = 0x202#16 := by decide

/-- F20A with no key down. -/
theorem test_ldVxK_wait : (ran (exec (.ldVxK 0x2#4) (State.reset.setPc 0x300#16))).pc = 0x300#16 := by decide

/-- F115. -/
theorem test_ldDtVx : (ran (exec (.ldDtVx 0x1#4) (with1 0x1#4 3))).DT = 3 := by decide

/-- F118. -/
theorem test_ldStVx : (ran (exec (.ldStVx 0x1#4) (with1 0x1#4 0x10#8))).ST = 0x10#8 := by decide

/-! ### The fetch and the host operations (spec/95_test_vectors.md) -/

/-- 6001 at 0xFFF and at 0x1000 is out of range, at 0xFFE it runs. -/
theorem test_fetch_bounds :
    fell (step (State.reset.setPc 0xFFF#16)) = some (.memoryAddressOutOfRange 0xFFF#16 0xFFF) ∧
    fell (step (State.reset.setPc 0x1000#16)) = some (.memoryAddressOutOfRange 0x1000#16 0x1000) ∧
    (ran (step ((State.reset.setPc 0xFFE#16).withFetchWord 16 0x6001))).pc = 0x1000#16 := by decide

/-- From reset the placed instruction is the next to run (log 8): 6005 gives V0 = 5 (source example E2). -/
theorem test_place_and_step :
    (ran (step (State.reset.withFetchWord 16 0x6005))).reg 0x0#4 = 5 ∧
    fell (step (State.reset.withFetchWord 16 0x8128)) = some (.unimplementedOpcode 0x200#16 0x8128#16) := by decide

/-- tickTimers at DT = 1, ST = 0 and at DT = 0, ST = 0xFF. -/
theorem test_tick :
    (State.reset.setDT 1).tickTimers.DT = 0 ∧ (State.reset.setDT 1).tickTimers.ST = 0 ∧
    (State.reset.setST 0xFF#8).tickTimers.DT = 0 ∧ (State.reset.setST 0xFF#8).tickTimers.ST = 0xFE#8 := by decide

/-- loadProgram of no bytes: the first step fetches 0x0000. -/
theorem test_empty_rom :
    (runHost [.loadProgram [], .step 0] none).1 = [.done, .error (.unimplementedOpcode 0x200#16 0x0000#16)] := by decide

/-- setKeyDown(16) is refused; before a reset nothing runs. -/
theorem test_host_refusals :
    perform (.setKeyDown 16) (some State.reset) = (.refused (.hostKeyIndexOutOfRange 16), some State.reset) ∧
    perform (.step 0) none = (.error .beforeFirstReset, none) := by decide

/-! ### Witnesses: for every statement with hypotheses, values that meet them -/

theorem witness_EncodeOfDecode : decode 0x8124#16 = .ok (.addReg 0x1#4 0x2#4) := by decide

theorem witness_DecoderAgreesWithOpcodeMap :
    (∃ r ∈ opcodeTable, r.accepts 0xF1FF#16 = false) ∧ (∀ r ∈ opcodeTable, r.accepts 0xF1FF#16 = false) ∧
    ∃ r ∈ opcodeTable, r.accepts 0xF165#16 = true := by decide

theorem witness_OpcodeRowsDisjoint :
    ∃ r ∈ opcodeTable, ∃ r' ∈ opcodeTable, r.accepts 0x8126#16 = true ∧ r'.accepts 0x8126#16 = true := by decide

theorem witness_IllegalWordsRaise :
    (State.reset.withFetchWord 16 0x812F).fetch = .ok 0x812F#16 ∧ legalWord 0x812F#16 = false :=
  ⟨State.withFetchWord_fetch _ _ _ (by decide), by decide⟩

/-- At the highest pc a fetch accepts. -/
theorem witness_StepRunsDecodedInstruction :
    let s := (State.reset.setPc 4094#16).withFetchWord 16 0xA2F0
    s.pc.toNat ≤ 4094 ∧
      decode (u16 ((s.M.read s.pc.toNat).toNat * 256 + (s.M.read (s.pc.toNat + 1)).toNat)) = .ok (.ldI 0x2F0#12) := by decide

theorem witness_FetchErrorsComeFirst :
    4094 < (State.reset.setPc 4095#16).pc.toNat ∧
    (let s := (State.reset.setPc 4094#16).withFetchWord 16 0x5121
     s.pc.toNat ≤ 4094 ∧ (0x5121#16 = u16 ((s.M.read s.pc.toNat).toNat * 256 + (s.M.read (s.pc.toNat + 1)).toNat)) ∧
      decode 0x5121#16 = .error (.unimplementedOpcode 0x5121#16)) := by decide

theorem witness_RetResult :
    State.reset.SP.val = 0 ∧ (stacked 1 0#16).SP.val = (0 : Fin 16).val + 1 ∧
    (stacked 16 0#16).SP.val = (15 : Fin 16).val + 1 := by decide

theorem witness_JpResult : State.reset.pc.toNat = (0x200#12 : Addr12).toNat := by decide

theorem witness_CallResult :
    (stacked 16 0#16).SP.val = 16 ∧ State.reset.SP.val = (0 : Fin 16).val ∧ (stacked 15 0#16).SP.val = (15 : Fin 16).val := by
  decide

theorem witness_ReturnResumesAfterCall : (stacked 15 0x202#16).SP.val < 16 := by decide

/-- X other than F, in AddRegisterResult, SubtractResult, ReverseSubtractResult and ShiftResult. -/
theorem witness_result_register : (0xE#4 : RegIdx) ≠ VF := by decide

theorem witness_RandomResult : (0x0F#8 : Byte).getLsbD 4 = false := by decide

theorem witness_FlagProducersLeaveFlag :
    producesFlag (.addReg 0x1#4 0x2#4) = true ∧
      exec (.addReg 0x1#4 0x2#4) State.reset = .next (ran (exec (.addReg 0x1#4 0x2#4) State.reset)) :=
  ⟨rfl, rfl⟩

theorem witness_DecimalStoreResult :
    0xFFF < (State.reset.setI 0xFFE#16).I.toNat + 2 ∧ (State.reset.setI 0xFFD#16).I.toNat + 2 ≤ 0xFFF := by decide

/-- Also for RegisterLoadResult and StoreThenLoadRestoresRegisters: both sides of the bound with X = F. -/
theorem witness_RegisterStoreResult :
    0xFFF < (State.reset.setI 0xFF1#16).I.toNat + (0xF#4 : RegIdx).toNat ∧
    (State.reset.setI 0xFF0#16).I.toNat + (0xF#4 : RegIdx).toNat ≤ 0xFFF ∧
    (0x0#4 : RegIdx).toNat ≤ (0x0#4 : RegIdx).toNat := by decide

theorem witness_RegisterLoadResult : (0x0#4 : RegIdx).toNat < (0x1#4 : RegIdx).toNat := by decide

theorem witness_StoreThenLoadRestoresRegisters :
    let s := (with2 0x0#4 0x12#8 0x1#4 0x34#8).setI 0x300#16
    let t := ran (exec (.ldMemVx 0x1#4) s)
    s.I.toNat + (0x1#4 : RegIdx).toNat ≤ 0xFFF ∧ (t.setReg 0x0#4 0).M = t.M ∧ (t.setReg 0x0#4 0).I = s.I := by decide

theorem witness_StoredBytesAreFetched :
    1 ≤ (0x1#4 : RegIdx).toNat ∧ (State.reset.setI 0xFFE#16).I.toNat + (0x1#4 : RegIdx).toNat ≤ 0xFFF := by decide

/-- The three ranges of DrawResult at their boundaries (N = 0 at any I; the last byte at 0xFFF; one byte beyond), and a pixel
no bit of a sprite lands on. -/
theorem witness_DrawResult :
    (0x0#4 : Nibble).toNat = 0 ∧
    (State.reset.setI 0xFF1#16).I.toNat + (0xF#4 : Nibble).toNat - 1 ≤ 0xFFF ∧
    (0 < (0x2#4 : Nibble).toNat ∧ 0xFFF < (State.reset.setI 0xFFF#16).I.toNat + (0x2#4 : Nibble).toNat - 1) ∧
    (∀ col < 8, ∀ r < 5, ¬ ((8 : Fin 64).val = (0 + col) % 64 ∧ (0 : Fin 32).val = (0 + r) % 32)) := by decide

theorem witness_DrawTwiceRestoresScreen :
    let s := State.reset
    let t := ran (exec (.drw 0x0#4 0x1#4 0x5#4) s)
    exec (.drw 0x0#4 0x1#4 0x5#4) s = .next t ∧ t.FB = t.FB ∧ t.M = s.M ∧ t.I = s.I ∧
      t.reg 0x0#4 = s.reg 0x0#4 ∧ t.reg 0x1#4 = s.reg 0x1#4 ∧
      exec (.drw 0x0#4 0x1#4 0x5#4) t = .next (ran (exec (.drw 0x0#4 0x1#4 0x5#4) t)) :=
  ⟨rfl, rfl, rfl, rfl, rfl, rfl, rfl⟩

theorem witness_SkipKeyResult :
    15 < ((with1 0x5#4 16).reg 0x5#4).toNat ∧ ((with1 0x5#4 15).reg 0x5#4).toNat = (15 : Fin 16).val := by decide

theorem witness_WaitForKeyResult :
    (∀ k : Fin 16, State.reset.KEY[k.val] = false) ∧
    (State.reset.withFetchWord 16 0xF20A).fetchInstr = .ok (.ldVxK 0x2#4) ∧
    (∀ k : Fin 16, (State.reset.withFetchWord 16 0xF20A).KEY[k.val] = false) ∧
    (pressed 15).KEY[(15 : Fin 16).val] = true ∧ (∀ j : Fin 16, j < 15 → (pressed 15).KEY[j.val] = false) := by decide

/-- A state with the invariant at its bounds that goes on: pc at 4094, a full stack of calls at 0xFFE. -/
theorem witness_StepKeepsInv :
    let s := ((stacked 16 0xFFE#16).setPc 4094#16).withFetchWord 16 0x6005
    s.M.wf = true ∧ s.pc.toNat ≤ 0x10FE ∧ (∀ k : Fin 16, k.val < s.SP.val → s.S[k.val].toNat ≤ 0xFFE) ∧
      (ran (step s)).reg 0x0#4 = 5 := by decide

theorem witness_EveryHostRunHasInv :
    ((runHost [.loadProgram [0x60, 0x05], .setKeyDown 3, .step 0, .tickTimers] none).2.map (fun t => t.reg 0x0#4)) = some 5 := by
  decide

/-- One instruction of each class of PcAdvancesByClass, each going on: here and in the other statements about every
instruction that answers a next state. -/
theorem witness_PcAdvancesByClass :
    (pcClass .cls = .sequential ∧ fell (exec .cls State.reset) = none) ∧
    (pcClass (.jp 0x201#12) = .jump ∧ fell (exec (.jp 0x201#12) State.reset) = none) ∧
    (pcClass .ret = .ret ∧ fell (exec .ret (stacked 1 0x200#16)) = none) ∧
    (pcClass (.skp 0x0#4) = .skip ∧ fell (exec (.skp 0x0#4) State.reset) = none) ∧
    (pcClass (.ldVxK 0x0#4) = .wait ∧ fell (exec (.ldVxK 0x0#4) State.reset) = none) := by decide

theorem witness_OnlyWrittenRegistersChange :
    writesReg (.ldVxMem 0x2#4) 0x3#4 = false ∧ fell (exec (.ldVxMem 0x2#4) State.reset) = none := by decide

/-- Each clause of OnlyTheirInstructionsChangeState and of StackPointerMovesByOne is met by an instruction that changes that
piece of state. -/
theorem witness_OnlyTheirInstructionsChangeState :
    (ran (exec (.ldI 0x300#12) State.reset)).I ≠ State.reset.I ∧
    (ran (exec (.call 0x300#12) State.reset)).SP ≠ State.reset.SP ∧
    (ran (exec (.ldDtVx 0x1#4) (with1 0x1#4 3))).DT ≠ State.reset.DT ∧
    (ran (exec (.ldStVx 0x1#4) (with1 0x1#4 3))).ST ≠ State.reset.ST ∧
    (ran (exec (.ldMemVx 0x0#4) ((with1 0x0#4 3).setI 0x300#16))).M.read 0x300 ≠ State.reset.M.read 0x300 ∧
    (ran (exec .cls State.reset)).RD ≠ State.reset.RD := by decide

/-- The first hypothesis at 00EE on an empty stack, the second at 00E0. -/
theorem witness_OnlyTheseInstructionsRaise :
    exec .ret State.reset = .fault (.callStackUnderflow 0x200#16) ∧ ∀ f, ¬ OwnError .cls State.reset f :=
  ⟨rfl, fun _ h => h⟩

theorem witness_StepErrorsCarryPc : step State.reset = .fault (.unimplementedOpcode 0x200#16 0x0000#16) := rfl

theorem witness_HostStepOutcomes :
    (State.reset.withFetchWord 16 0xF20A).fetchInstr = .ok (.ldVxK 0x2#4) ∧
      (∀ k : Fin 16, (State.reset.withFetchWord 16 0xF20A).KEY[k.val] = false) ∧
      (hostStep 0 State.reset).1 = .error (.unimplementedOpcode 0x200#16 0x0000#16) ∧
      (hostStep 0 (State.reset.withFetchWord 16 0x00E0)).1 = .executed := by decide

theorem witness_OnlyRndReadsRandomByte :
    (State.reset.withFetchWord 16 0xC30F).fetchInstr = .ok (.rnd 0x3#4 0x0F#8) ∧ (0xA7#8 &&& 0x0F#8 = 0x17#8 &&& 0x0F#8) ∧
    (State.reset.withFetchWord 16 0x6005).fetchInstr = .ok (.ldImm 0x0#4 0x05#8) := by decide

/-- All three quiescent conditions occur. -/
theorem witness_QuiescentStatesStay :
    (Errs State.reset ∧ Quiescent State.reset) ∧
      (SelfLoop (State.reset.withFetchWord 16 0x1200) ∧ Quiescent (State.reset.withFetchWord 16 0x1200)) ∧
      (State.reset.withFetchWord 16 0xF20A).waits = true ∧ Quiescent (State.reset.withFetchWord 16 0xF20A) :=
  have e : Errs State.reset := ⟨_, witness_StepErrorsCarryPc⟩
  have l : SelfLoop (State.reset.withFetchWord 16 0x1200) := ⟨0x200#12, by decide, by decide⟩
  have w : (State.reset.withFetchWord 16 0xF20A).waits = true := by decide
  ⟨⟨e, .inl e⟩, ⟨l, .inr (.inl l)⟩, w, .inr (.inr w)⟩

theorem witness_ResetLeavesResetValues : (79 : Nat) < 80 ∧ (80 : Nat) ≤ 80 := by decide

theorem witness_LoadProgramResult :
    (List.replicate 3585 (0 : Byte)).length > 3584 ∧ (List.replicate 3584 (0 : Byte)).length ≤ 3584 ∧
      ([] : List Byte).length ≤ 3584 := by
  rw [List.length_replicate, List.length_replicate]; decide

theorem witness_KeyWriteResult : 15 < (16 : Nat) ∧ (0 : Nat) < 16 ∧ ∃ j : Fin 16, j.val ≠ 15 := by decide

/-- A full stack of calls at 0xFFE with pc at 4094 is a state with the invariant, and a tick of it leaves a state. -/
theorem witness_EveryHostOperationKeepsInv :
    let s := (stacked 16 0xFFE#16).setPc 4094#16
    s.M.wf = true ∧ s.pc.toNat ≤ 0x10FE ∧ (∀ k : Fin 16, k.val < s.SP.val → s.S[k.val].toNat ≤ 0xFFE) ∧
      (perform .tickTimers (some s)).2 = some s ∧ (perform .reset none).2 = some State.reset := by decide

theorem witness_NothingRunsBeforeReset :
    HostOp.step 0 ≠ .reset ∧ ∀ bytes, HostOp.step 0 ≠ .loadProgram bytes := ⟨by decide, fun _ h => by cases h⟩

end Sys2Proof.Tests
end

section
/-! SUPPORT. Everything an instruction that goes on can do, said once: the shapes of its next state. A fact about every
instruction is then a case split over the shapes. -/

namespace Sys2Proof.Machine

/-! ### Flags -/

/-- A byte VF may hold as a flag (spec/10_state.md R16). -/
def IsFlag (b : Byte) : Prop := b = 0 ∨ b = 1

theorem isFlag_flagByte (c : Bool) : IsFlag (flagByte c) := by
  cases c
  · exact .inl rfl
  · exact .inr rfl

theorem isFlag_u8 {n : Nat} (h : n < 2) : IsFlag (u8 n) := by
  obtain rfl | rfl : n = 0 ∨ n = 1 := by omega
  · exact .inl rfl
  · exact .inr rfl

theorem isFlag_shiftedOutRight (a : Byte) : IsFlag (shiftedOutRight a) := isFlag_u8 (by omega)

theorem isFlag_shiftedOutLeft (a : Byte) : IsFlag (shiftedOutLeft a) := isFlag_u8 (by omega)

/-- Only instructions that go on to the next one produce a flag (R16, R63). -/
theorem producesFlag_of_pcClass_ne {i : Instr} (h : pcClass i ≠ .sequential) : producesFlag i = false := by
  cases i with
  | addReg | sub | shr | subn | shl | addIVx | drw => exact absurd rfl h
  | _ => rfl

/-! ### The shapes -/

/-- `ExecShape s i t`: `t` is a state the instruction `i` may leave when it goes on from `s`. One constructor per shape
of update, with what the rules of its instructions say of the values written. -/
inductive ExecShape (s : State) : Instr → State → Prop
  /-- A jump: no target lies above 0x10FE (R72, R74). -/
  | jump {i : Instr} {w : Word} (hi : pcClass i = .jump) (hw : w.toNat ≤ 0x10FE) : ExecShape s i (s.setPc w)
  /-- A skip, taken or not (R75 to R78, R101, R102). -/
  | skip {i : Instr} (c : Bool) (hi : pcClass i = .skip) : ExecShape s i (s.skipIf c)
  /-- A call with room on the stack (R73). -/
  | call (nnn : Addr12) (h : s.SP.val < 16) :
    ExecShape s (.call nnn)
      (({ s with S := s.S.set s.SP.val s.pc h, SP := ⟨s.SP.val + 1, Nat.succ_lt_succ h⟩ } : State).setPc (target nnn))
  /-- A return from a stack of `k + 1` entries (R71). -/
  | ret (k : Fin 16) (h : s.SP.val = k.val + 1) :
    ExecShape s .ret (({ s with SP := ⟨k.val, by omega⟩ } : State).setPc (u16 (s.S[k.val].toNat + 2)))
  /-- FX0A with no key pressed: nothing changes (R104). -/
  | wait (x : RegIdx) : ExecShape s (.ldVxK x) s
  /-- One register written, no flag (R79 to R84, R103, R104). -/
  | writeReg {i : Instr} (x : RegIdx) (b : Byte) (hw : ∀ r, writesReg i r = (r == x)) (hf : producesFlag i = false) :
    ExecShape s i (s.setReg x b).nextInstr
  /-- CXNN, whatever its random byte (R90). -/
  | rnd (x : RegIdx) (nn b : Byte) : ExecShape s (.rnd x nn) (s.countDraw.setReg x b).nextInstr
  /-- One register written, then its flag (R85 to R89). -/
  | writeRegFlag {i : Instr} (x : RegIdx) (b : Byte) {f : Byte} (hw : ∀ r, writesReg i r = (r == x || r == VF))
    (hf : IsFlag f) : ExecShape s i ((s.setReg x b).setFlag f).nextInstr
  /-- ANNN or FX29 (R91, R93). -/
  | setI {i : Instr} (w : Word) (hi : (∃ nnn, i = .ldI nnn) ∨ ∃ x, i = .ldFVx x) : ExecShape s i (s.setI w).nextInstr
  /-- FX1E (R92). -/
  | addI (x : RegIdx) (w : Word) {f : Byte} (hf : IsFlag f) :
    ExecShape s (.addIVx x) ((s.setI w).setFlag f).nextInstr
  /-- FX15 (R105). -/
  | setDT (x : RegIdx) : ExecShape s (.ldDtVx x) (s.setDT (s.reg x)).nextInstr
  /-- FX18 (R106). -/
  | setST (x : RegIdx) : ExecShape s (.ldStVx x) (s.setST (s.reg x)).nextInstr
  /-- FX33 or FX55, every byte of it in memory (R94, R95). -/
  | store {i : Instr} (bs : List Byte) (hi : (∃ x, i = .ldBVx x) ∨ ∃ x, i = .ldMemVx x)
    (hb : s.I.toNat + bs.length ≤ Config.memSize) :
    ExecShape s i (s.setM (s.M.writeBytes s.I.toNat bs)).nextInstr
  /-- FX65 (R96). -/
  | load (x : RegIdx) : ExecShape s (.ldVxMem x) (s.setV (loadRegs s.V s.M s.I.toNat (upTo x))).nextInstr
  /-- 00E0 (R99). -/
  | cls : ExecShape s .cls (s.redraw Framebuffer.clear).nextInstr
  /-- DXYN (R100). -/
  | drw (x y : RegIdx) (n : Nibble) (d : Blit) : ExecShape s (.drw x y n) (s.draw d)

/-! ### Every instruction that goes on has a shape -/

/-- An answer known to be the next state `u` is only that one. -/
theorem ExecShape.of_next {i : Instr} {s t u : State} (hu : ExecShape s i u)
    (h : (.next u : Result) = .next t) : ExecShape s i t :=
  Host.Outcome.next.inj h ▸ hu

theorem offsetTarget_le (s : State) (nnn : Addr12) : (s.offsetTarget nnn).toNat ≤ 0x10FE := by
  have := nnn.isLt
  have := (s.reg 0x0#4).isLt
  unfold State.offsetTarget
  rw [u16_toNat]
  omega

theorem target_le (nnn : Addr12) : (target nnn).toNat ≤ 0x10FE := by
  have := nnn.isLt
  rw [target_toNat]
  omega

/-- The instructions with a guard: under `p` they answer a state of their shape, else they raise. -/
theorem execShape_of_guarded {i : Instr} {s t : State} {p : Prop} {u : p → State} {f : Fault}
    (hpos : ∀ hp : p, exec i s = .next (u hp)) (hneg : ¬ p → exec i s = .fault f) (hu : ∀ hp : p, ExecShape s i (u hp))
    (h : exec i s = .next t) : ExecShape s i t := by
  by_cases hp : p
  · rw [hpos hp] at h
    exact (hu hp).of_next h
  · rw [hneg hp] at h
    cases h

theorem execShape_call {s t : State} {nnn : Addr12} (h : exec (.call nnn) s = .next t) : ExecShape s (.call nnn) t :=
  execShape_of_guarded (exec_call_next s nnn) (fun hp => exec_call_full s nnn (by omega)) (ExecShape.call nnn) h

theorem execShape_ret {s t : State} (h : exec .ret s = .next t) : ExecShape s .ret t := by
  have hk (hp : s.SP.val ≠ 0) : s.SP.val = s.SP.val - 1 + 1 := by omega
  exact execShape_of_guarded (fun hp => exec_ret_next s ⟨s.SP.val - 1, by omega⟩ (hk hp))
    (fun hp => exec_ret_empty s (not_ne_iff.mp hp)) (fun hp => .ret _ (hk hp)) h

theorem execShape_skp {s t : State} {x : RegIdx} (h : exec (.skp x) s = .next t) : ExecShape s (.skp x) t :=
  execShape_of_guarded (exec_skp_next s x) (fun hp => exec_skp_bad s x (by omega)) (fun _ => .skip _ rfl) h

theorem execShape_sknp {s t : State} {x : RegIdx} (h : exec (.sknp x) s = .next t) : ExecShape s (.sknp x) t :=
  execShape_of_guarded (exec_sknp_next s x) (fun hp => exec_sknp_bad s x (by omega)) (fun _ => .skip _ rfl) h

theorem execShape_ldVxK {s t : State} {x : RegIdx} (h : exec (.ldVxK x) s = .next t) : ExecShape s (.ldVxK x) t := by
  cases hk : s.lowestKey with
  | none =>
    rw [exec_ldVxK_wait s x (s.lowestKey_eq_none.mp hk)] at h
    exact (ExecShape.wait x).of_next h
  | some k =>
    rw [exec_ldVxK_next s x k hk] at h
    exact (ExecShape.writeReg x _ (fun _ => rfl) rfl).of_next h

theorem execShape_ldBVx {s t : State} {x : RegIdx} (h : exec (.ldBVx x) s = .next t) : ExecShape s (.ldBVx x) t := by
  obtain ⟨rfl, h0 | hb⟩ := State.transfer_next h
  · cases h0
  · exact .store _ (.inl ⟨x, rfl⟩) hb

theorem execShape_ldMemVx {s t : State} {x : RegIdx} (h : exec (.ldMemVx x) s = .next t) :
    ExecShape s (.ldMemVx x) t := by
  obtain ⟨rfl, h0 | hb⟩ := State.transfer_next h
  · exact absurd h0 (upTo_ne_zero x)
  · exact .store _ (.inr ⟨x, rfl⟩) (by rwa [length_firstRegs])

theorem execShape_ldVxMem {s t : State} {x : RegIdx} (h : exec (.ldVxMem x) s = .next t) :
    ExecShape s (.ldVxMem x) t := by
  obtain ⟨rfl, -⟩ := State.transfer_next h
  exact .load x

theorem execShape_drw {s t : State} {x y : RegIdx} {n : Nibble} (h : exec (.drw x y n) s = .next t) :
    ExecShape s (.drw x y n) t := by
  obtain ⟨rfl, -⟩ := State.transfer_next h
  exact .drw x y n _

/-- The inversion lemma of `exec`: an instruction that goes on leaves a state of its shape (R62 to R64). -/
theorem execShape_of_next {s t : State} : ∀ {i : Instr}, exec i s = .next t → ExecShape s i t
  | .cls, h => ExecShape.cls.of_next h
  | .ret, h => execShape_ret h
  | .jp nnn, h => (ExecShape.jump rfl (target_le nnn)).of_next h
  | .call _, h => execShape_call h
  | .seImm _ _, h => (ExecShape.skip _ rfl).of_next h
  | .sneImm _ _, h => (ExecShape.skip _ rfl).of_next h
  | .seReg _ _, h => (ExecShape.skip _ rfl).of_next h
  | .ldImm x _, h => (ExecShape.writeReg x _ (fun _ => rfl) rfl).of_next h
  | .addImm x _, h => (ExecShape.writeReg x _ (fun _ => rfl) rfl).of_next h
  | .ldReg x _, h => (ExecShape.writeReg x _ (fun _ => rfl) rfl).of_next h
  | .or x _, h => (ExecShape.writeReg x _ (fun _ => rfl) rfl).of_next h
  | .and x _, h => (ExecShape.writeReg x _ (fun _ => rfl) rfl).of_next h
  | .xor x _, h => (ExecShape.writeReg x _ (fun _ => rfl) rfl).of_next h
  | .addReg x _, h => (ExecShape.writeRegFlag x _ (fun _ => rfl) (isFlag_flagByte _)).of_next h
  | .sub x _, h => (ExecShape.writeRegFlag x _ (fun _ => rfl) (isFlag_flagByte _)).of_next h
  | .shr x _, h => (ExecShape.writeRegFlag x _ (fun _ => rfl) (isFlag_shiftedOutRight _)).of_next h
  | .subn x _, h => (ExecShape.writeRegFlag x _ (fun _ => rfl) (isFlag_flagByte _)).of_next h
  | .shl x _, h => (ExecShape.writeRegFlag x _ (fun _ => rfl) (isFlag_shiftedOutLeft _)).of_next h
  | .sneReg _ _, h => (ExecShape.skip _ rfl).of_next h
  | .ldI nnn, h => (ExecShape.setI _ (.inl ⟨nnn, rfl⟩)).of_next h
  | .jpV0 nnn, h => (ExecShape.jump rfl (offsetTarget_le s nnn)).of_next h
  | .rnd x nn, h => (ExecShape.rnd x nn _).of_next h
  | .drw _ _ _, h => execShape_drw h
  | .skp _, h => execShape_skp h
  | .sknp _, h => execShape_sknp h
  | .ldVxDt x, h => (ExecShape.writeReg x _ (fun _ => rfl) rfl).of_next h
  | .ldVxK _, h => execShape_ldVxK h
  | .ldDtVx x, h => (ExecShape.setDT x).of_next h
  | .ldStVx x, h => (ExecShape.setST x).of_next h
  | .addIVx x, h => (ExecShape.addI x _ (isFlag_flagByte _)).of_next h
  | .ldFVx x, h => (ExecShape.setI _ (.inr ⟨x, rfl⟩)).of_next h
  | .ldBVx _, h => execShape_ldBVx h
  | .ldMemVx _, h => execShape_ldMemVx h
  | .ldVxMem _, h => execShape_ldVxMem h

end Sys2Proof.Machine
end

section
/-! PROOFS. The invariant (spec/10_state.md R18, R32): it holds after reset, and each of its three parts is kept by every
shape of update. -/

namespace Sys2Proof.Machine

variable {i : Instr} {s t : State}

/-- Memory stays in its canonical form: the stores are inside 0..4095 (R39), and nothing else writes memory. -/
theorem ExecShape.wf_M (h : ExecShape s i t) (hM : s.M.wf = true) : t.M.wf = true := by
  cases h with
  | store bs _ hb => exact Memory.wf_writeBytes bs hM hb
  | skip c => rwa [State.skipIf_M]
  | _ => exact hM

/-- pc stays in bounds (R18): an instruction fetched from 0..4094 goes at most 4 on, a jump at most to 0x10FE, and a
return 2 past a live stack entry. -/
theorem ExecShape.pcInv (h : ExecShape s i t) (hpc : s.pc.toNat ≤ 4094) (hS : StackInv s) : PcInv t := by
  cases h with
  | jump _ hw => exact hw
  | call nnn _ => exact target_le nnn
  | ret k hk =>
    have := hS k (by omega)
    simp only [PcInv, State.setPc_pc, u16_toNat]
    omega
  | wait => unfold PcInv; omega
  | skip c => exact pcInv_of_pcPlus hpc (by split <;> omega) (pcPlus_skipIf s c)
  | _ => exact pcInv_of_pcPlus hpc (by omega) (pcPlus_nextInstr s _ rfl)

/-- A call pushes the address it was fetched from (R73). -/
theorem stackInv_call (hpc : s.pc.toNat ≤ 4094) (hS : StackInv s) (hlt : s.SP.val < 16) (w : Word) :
    StackInv (({ s with S := s.S.set s.SP.val s.pc hlt, SP := ⟨s.SP.val + 1, Nat.succ_lt_succ hlt⟩ } : State).setPc w) := by
  intro k hk
  simp only [State.setPc_S, State.setPc_SP, Vector.getElem_set] at hk ⊢
  split
  · exact hpc
  · exact hS k (by omega)

/-- Every live stack entry stays the address of a fetched call (R61, R73); a return only makes the top entry stale. -/
theorem ExecShape.stackInv (h : ExecShape s i t) (hpc : s.pc.toNat ≤ 4094) (hS : StackInv s) : StackInv t := by
  cases h with
  | call nnn hlt => exact stackInv_call hpc hS hlt _
  | ret k hk =>
    intro j hj
    simp only [State.setPc_SP] at hj
    exact hS j (by omega)
  | skip c => exact stackInv_of_same (s.skipIf_S c) (s.skipIf_SP c) hS
  | _ => exact stackInv_of_same rfl rfl hS

/-- An instruction fetched from 0..4094 that goes on keeps the invariant. -/
theorem ExecShape.inv (h : ExecShape s i t) (hpc : s.pc.toNat ≤ 4094) (hs : Inv s) : Inv t := by
  obtain ⟨hM, -, hS⟩ := hs
  exact ⟨h.wf_M hM, h.pcInv hpc hS, h.stackInv hpc hS⟩

/-- Settles O37: a step that goes on has run a fetched instruction, and every shape of update keeps the invariant. -/
theorem stepKeepsInv : Obligations.StepKeepsInv := by
  intro s t hs h
  obtain ⟨i, -, hpc, hexec⟩ := step_next h
  exact (execShape_of_next hexec).inv hpc hs

/-- Settles O38: reset memory lists nothing, pc is 0x200 and the stack is empty (R32). -/
theorem resetHasInv : Obligations.ResetHasInv := by
  refine ⟨State.reset_M_wf, ?_, fun k hk => absurd hk (Nat.not_lt_zero _)⟩
  show (u16 Config.progStart).toNat ≤ 0x10FE
  decide

end Sys2Proof.Machine
end

section
/-! PROOFS. The register file (spec/10_state.md R16, R17, spec/40_step_cycle.md R64, R68): what VF holds after a flag, and
which registers an instruction leaves alone. -/

namespace Sys2Proof.Machine

variable {i : Instr} {s t : State}

/-- VF is the last write of a flag-producing instruction (R68). -/
theorem ExecShape.isFlag_VF (h : ExecShape s i t) (hi : producesFlag i = true) : IsFlag (t.reg VF) := by
  cases h with
  | writeRegFlag _ _ _ hf => rwa [State.reg_nextInstr, State.reg_setFlag]
  | addI _ _ hf => rwa [State.reg_nextInstr, State.reg_setFlag]
  | drw _ _ _ d => rw [State.reg_draw]; exact isFlag_flagByte _
  | jump hc => simp [producesFlag_of_pcClass_ne (hc.trans_ne nofun)] at hi
  | skip _ hc => simp [producesFlag_of_pcClass_ne (hc.trans_ne nofun)] at hi
  | writeReg _ _ _ hf => simp [hf] at hi
  | setI _ hc => obtain ⟨_, rfl⟩ | ⟨_, rfl⟩ := hc <;> cases hi
  | store _ hc => obtain ⟨_, rfl⟩ | ⟨_, rfl⟩ := hc <;> cases hi
  | _ => cases hi

/-- Settles O23: the shapes that produce a flag write VF last, with 0 or 1. -/
theorem flagProducersLeaveFlag : Obligations.FlagProducersLeaveFlag :=
  fun _ _ _ hi h => (execShape_of_next h).isFlag_VF hi

/-- A block load leaves the registers above Vx alone (R96). -/
theorem reg_load_of_not_le {x r : RegIdx} (h : ¬ r.toNat ≤ x.toNat) :
    (s.setV (loadRegs s.V s.M s.I.toNat (upTo x))).reg r = s.reg r := by
  rw [State.reg_setV, getElem_loadRegs, if_neg (by unfold upTo; omega)]
  rfl

/-- A register `writesReg` does not name keeps its value (R17). -/
theorem ExecShape.reg_eq (h : ExecShape s i t) {r : RegIdx} (hr : writesReg i r = false) : t.reg r = s.reg r := by
  cases h with
  | skip c => exact s.reg_skipIf c r
  | writeReg x b hw =>
    rw [hw, beq_eq_false_iff_ne] at hr
    exact s.reg_setReg_other b hr
  | rnd x _ b => exact s.countDraw.reg_setReg_other b (beq_eq_false_iff_ne.mp hr)
  | writeRegFlag x b hw =>
    rw [hw, Bool.or_eq_false_iff, beq_eq_false_iff_ne, beq_eq_false_iff_ne] at hr
    obtain ⟨hx, hVF⟩ := hr
    rw [State.reg_nextInstr, State.reg_setFlag_other _ _ hVF, State.reg_setReg_other _ _ hx]
  | addI _ w => exact (s.setI w).reg_setFlag_other _ (beq_eq_false_iff_ne.mp hr)
  | load x => exact reg_load_of_not_le (of_decide_eq_false hr)
  | drw => exact s.reg_draw_other (beq_eq_false_iff_ne.mp hr)
  | _ => rfl

/-- Settles O41: each shape writes only the registers `writesReg` names. -/
theorem onlyWrittenRegistersChange : Obligations.OnlyWrittenRegistersChange :=
  fun _ _ _ h _ hr => (execShape_of_next h).reg_eq hr

end Sys2Proof.Machine
end

section
/-! PROOFS. Everything but the registers and pc (spec/10_state.md R20 to R27, spec/40_step_cycle.md R64): each piece of
state stays as it was, or the instruction is one that writes it. -/

namespace Sys2Proof.Machine

variable {i : Instr} {s t : State}

theorem ExecShape.KEY_eq (h : ExecShape s i t) : t.KEY = s.KEY := by
  cases h with
  | skip c => exact s.skipIf_KEY c
  | _ => rfl

theorem ExecShape.I_eq_or (h : ExecShape s i t) :
    t.I = s.I ∨ (∃ nnn, i = .ldI nnn) ∨ (∃ x, i = .addIVx x) ∨ ∃ x, i = .ldFVx x := by
  cases h with
  | setI _ hi => exact .inr (hi.imp_right .inr)
  | addI x => exact .inr (.inr (.inl ⟨x, rfl⟩))
  | skip c => exact .inl (s.skipIf_I c)
  | _ => exact .inl rfl

/-- SP moves by one in a call and in a return; every other instruction leaves the whole stack alone (R21, R22). -/
theorem ExecShape.stack_eq_or (h : ExecShape s i t) :
    (t.S = s.S ∧ t.SP = s.SP) ∨ (t.SP.val = s.SP.val + 1 ∧ ∃ nnn, i = .call nnn) ∨
      (t.SP.val + 1 = s.SP.val ∧ i = .ret) := by
  cases h with
  | call nnn => exact .inr (.inl ⟨rfl, nnn, rfl⟩)
  | ret k hk => exact .inr (.inr ⟨hk.symm, rfl⟩)
  | skip c => exact .inl ⟨s.skipIf_S c, s.skipIf_SP c⟩
  | _ => exact .inl ⟨rfl, rfl⟩

theorem ExecShape.DT_eq_or (h : ExecShape s i t) : t.DT = s.DT ∨ ∃ x, i = .ldDtVx x := by
  cases h with
  | setDT x => exact .inr ⟨x, rfl⟩
  | skip c => exact .inl (s.skipIf_DT c)
  | _ => exact .inl rfl

theorem ExecShape.ST_eq_or (h : ExecShape s i t) : t.ST = s.ST ∨ ∃ x, i = .ldStVx x := by
  cases h with
  | setST x => exact .inr ⟨x, rfl⟩
  | skip c => exact .inl (s.skipIf_ST c)
  | _ => exact .inl rfl

theorem ExecShape.M_eq_or (h : ExecShape s i t) : t.M = s.M ∨ (∃ x, i = .ldBVx x) ∨ ∃ x, i = .ldMemVx x := by
  cases h with
  | store _ hi => exact .inr hi
  | skip c => exact .inl (s.skipIf_M c)
  | _ => exact .inl rfl

theorem ExecShape.display_eq_or (h : ExecShape s i t) :
    (t.FB = s.FB ∧ t.RD = s.RD) ∨ (i = .cls ∨ ∃ x y n, i = .drw x y n) ∧ t.RD = true := by
  cases h with
  | cls => exact .inr ⟨.inl rfl, rfl⟩
  | drw x y n => exact .inr ⟨.inr ⟨x, y, n, rfl⟩, rfl⟩
  | skip c => exact .inl ⟨s.skipIf_FB c, s.skipIf_RD c⟩
  | _ => exact .inl ⟨rfl, rfl⟩

/-! ### The frames of a piece of state that is the same -/

theorem sameKeys_of_KEY_eq (h : t.KEY = s.KEY) : SameKeys s t := fun k => by rw [h]

theorem sameStack_of_eq (hS : t.S = s.S) (hSP : t.SP = s.SP) : SameStack s t := ⟨hSP, fun k => by rw [hS]⟩

theorem sameMemory_of_M_eq (h : t.M = s.M) : SameMemory s t := fun a => by rw [h]

theorem sameDisplay_of_eq (hFB : t.FB = s.FB) (hRD : t.RD = s.RD) : SameDisplay s t := ⟨fun x y => by rw [hFB], hRD⟩

/-- Settles O42: one clause per piece of state, each by its lemma over the shapes. -/
theorem onlyTheirInstructionsChangeState : Obligations.OnlyTheirInstructionsChangeState := by
  intro i s t hexec
  have h := execShape_of_next hexec
  refine ⟨sameKeys_of_KEY_eq h.KEY_eq, h.I_eq_or.resolve_left, fun hne => ?_, h.DT_eq_or.resolve_left,
    h.ST_eq_or.resolve_left, fun hne => h.M_eq_or.resolve_left (mt sameMemory_of_M_eq hne),
    fun hne => h.display_eq_or.resolve_left (mt (fun hd => sameDisplay_of_eq hd.1 hd.2) hne)⟩
  obtain ⟨hS, hSP⟩ | ⟨-, hcall⟩ | ⟨-, hret⟩ := h.stack_eq_or
  · exact absurd (sameStack_of_eq hS hSP) hne
  · exact .inl hcall
  · exact .inr hret

/-- Settles O43: SP is that of the stack clause over the shapes. -/
theorem stackPointerMovesByOne : Obligations.StackPointerMovesByOne :=
  fun _ _ _ h => (execShape_of_next h).stack_eq_or.imp_left And.right

end Sys2Proof.Machine
end

section
/-! PROOFS. Code is data (spec/20_memory.md R35, R37, R46): the bytes a block store leaves in memory, and the word a later
fetch reads there. -/

namespace Sys2Proof.Machine

/-- The big-endian word of two bytes as a number (R35). -/
theorem wordOfBytes_eq_u16 (hi lo : Byte) : wordOfBytes hi lo = u16 (hi.toNat * 256 + lo.toNat) := by
  have hhi := hi.isLt
  have hlo := lo.isLt
  apply BitVec.eq_of_toNat_eq
  rw [wordOfBytes, BitVec.toNat_append, ← Nat.shiftLeft_add_eq_or_of_lt hlo, Nat.shiftLeft_eq, u16_toNat]
  omega

/-- A block store of V0..Vx leaves Vk at I + k (R95). -/
theorem State.read_writeBytes_firstRegs (s : State) {x : RegIdx} (k : RegIdx) (hk : k.toNat ≤ x.toNat) :
    (s.M.writeBytes s.I.toNat (firstRegs s.V (upTo x))).read (s.I.toNat + k.toNat) = s.reg k := by
  have hlen : k.toNat < (firstRegs s.V (upTo x)).length := by
    rw [length_firstRegs]
    exact Nat.lt_succ_of_le hk
  rw [Memory.read_writeBytes_inside _ _ _ hlen]
  exact getElem_firstRegs s.V (upTo x) k.toNat k.isLt hlen

/-- Settles O30: FX55 leaves V0 at I and V1 at I + 1, the two bytes a fetch at I joins (R35). -/
theorem storedBytesAreFetched : Obligations.StoredBytesAreFetched := by
  intro x s hx hI
  refine ⟨_, exec_ldMemVx_next s x hI, ?_⟩
  have hV0 : (s.M.writeBytes s.I.toNat (firstRegs s.V (upTo x))).read s.I.toNat = s.reg 0x0#4 :=
    s.read_writeBytes_firstRegs 0x0#4 (Nat.zero_le _)
  have hV1 : (s.M.writeBytes s.I.toNat (firstRegs s.V (upTo x))).read (s.I.toNat + 1) = s.reg 0x1#4 :=
    s.read_writeBytes_firstRegs 0x1#4 hx
  rw [State.fetch_eq, State.setPc_pc, if_neg (by omega), State.wordAtPc]
  simp only [State.setPc_pc, State.setPc_M, State.nextInstr_M, State.setM_M, hV0, hV1, wordOfBytes_eq_u16]

end Sys2Proof.Machine
end

section
/-! PROOFS. The encoding (spec/30_encoding.md R49 to R58): decoding the word of an instruction gives it back; the
decoder's answer on any word, said once, against the encoder and the illegal classes of R58; the opcode map's rows. -/

namespace Sys2Proof

/-! ### Decoding an encoded instruction -/

/-- Decoding undoes encoding: the dispatch reads back the group, then the sub-opcode, then the operands (R50, R53). -/
theorem decode_encode (i : Instr) : decode (encode i) = .ok i := by
  cases i
  case cls | ret => rfl
  case jp | call | ldI | jpV0 => simp only [encode, decode, fieldG_wordGNNN, fieldNNN_wordGNNN]
  case seImm | sneImm | ldImm | addImm | rnd =>
    simp only [encode, decode, fieldG_wordGXNN, fieldX_wordGXNN, fieldNN_wordGXNN]
  case drw => simp only [encode, decode, fieldG_wordGXYN, fieldX_wordGXYN, fieldY_wordGXYN, fieldN_wordGXYN]
  case seReg | sneReg =>
    simp only [encode, decode, decodeLow0, fieldG_wordGXYN, fieldX_wordGXYN, fieldY_wordGXYN, fieldN_wordGXYN, if_true]
  case ldReg | or | and | xor | addReg | sub | shr | subn | shl =>
    simp only [encode, decode, decode8, fieldG_wordGXYN, fieldX_wordGXYN, fieldY_wordGXYN, fieldN_wordGXYN]
  case skp | sknp => simp only [encode, decode, decodeE, fieldG_wordGXNN, fieldX_wordGXNN, fieldNN_wordGXNN]
  case ldVxDt | ldVxK | ldDtVx | ldStVx | addIVx | ldFVx | ldBVx | ldMemVx | ldVxMem =>
    simp only [encode, decode, decodeF, fieldG_wordGXNN, fieldX_wordGXNN, fieldNN_wordGXNN]

/-- Settles O1: by the format of each instruction. -/
theorem decodeOfEncode : Obligations.DecodeOfEncode := decode_encode

/-! ### The decoder's answer on any word -/

/-- The illegal words, class by class (R58). -/
def IllegalClass (w : Word) : Prop :=
  (fieldG w = 0x0#4 ∧ w ≠ 0x00E0#16 ∧ w ≠ 0x00EE#16) ∨
    ((fieldG w = 0x5#4 ∨ fieldG w = 0x9#4) ∧ fieldN w ≠ 0x0#4) ∨
    (fieldG w = 0x8#4 ∧ fieldN w ∈ [0x8#4, 0x9#4, 0xA#4, 0xB#4, 0xC#4, 0xD#4, 0xF#4]) ∨
    (fieldG w = 0xE#4 ∧ fieldNN w ∉ [0x9E#8, 0xA1#8]) ∨
    (fieldG w = 0xF#4 ∧ fieldNN w ∉ [0x07#8, 0x0A#8, 0x15#8, 0x18#8, 0x1E#8, 0x29#8, 0x33#8, 0x55#8, 0x65#8])

/-- `DecodeAnswer w d`: `d` is an answer the decoder may give on `w`. -/
inductive DecodeAnswer (w : Word) : Decoded → Prop
  /-- An instruction whose word is `w` (R52). -/
  | legal {i : Instr} (h : encode i = w) : DecodeAnswer w (.ok i)
  /-- A refusal that names the illegal word (R58). -/
  | illegal (h : IllegalClass w) : DecodeAnswer w (.error (.unimplementedOpcode w))

section
variable {w : Word} {g : BitVec 4} {n : Nibble} {nn : Byte}

theorem wordGNNN_eq_of_fieldG (hg : fieldG w = g) : wordGNNN g (fieldNNN w) = w := by
  rw [← hg, wordGNNN_of_fields]

theorem wordGXNN_eq_of_fields (hg : fieldG w = g) (hnn : fieldNN w = nn) : wordGXNN g (fieldX w) nn = w := by
  rw [← hg, ← hnn, wordGXNN_of_fields]

theorem wordGXYN_eq_of_fields (hg : fieldG w = g) (hn : fieldN w = n) : wordGXYN g (fieldX w) (fieldY w) n = w := by
  rw [← hg, ← hn, wordGXYN_of_fields]

/-- Group 0 (R57). -/
theorem decode0_answer (hg : fieldG w = 0x0#4) : DecodeAnswer w (decode0 w) := by
  unfold decode0
  split
  · next h => exact .legal h.symm
  · next h =>
    split
    · next h' => exact .legal h'.symm
    · next h' => exact .illegal (.inl ⟨hg, h, h'⟩)

/-- Groups 5 and 9 (R55), whose one instruction has low nibble 0. -/
theorem decodeLow0_answer {i : Instr} (hg : fieldG w = 0x5#4 ∨ fieldG w = 0x9#4)
    (hi : fieldN w = 0x0#4 → encode i = w) : DecodeAnswer w (decodeLow0 i w) := by
  unfold decodeLow0
  split
  · next hn => exact .legal (hi hn)
  · next hn => exact .illegal (.inr (.inl ⟨hg, hn⟩))

/-- The low nibbles group 8 leaves over are those R58 lists. -/
theorem lowNibble_illegal : ∀ n : Nibble, n ∉ [0x0#4, 0x1#4, 0x2#4, 0x3#4, 0x4#4, 0x5#4, 0x6#4, 0x7#4, 0xE#4] →
    n ∈ [0x8#4, 0x9#4, 0xA#4, 0xB#4, 0xC#4, 0xD#4, 0xF#4] := by decide

/-- Group 8 (R56). -/
theorem decode8_answer (hg : fieldG w = 0x8#4) : DecodeAnswer w (decode8 w) := by
  unfold decode8
  split
  iterate 9 · next hn => exact .legal (wordGXYN_eq_of_fields hg hn)
  · refine .illegal (.inr (.inr (.inl ⟨hg, lowNibble_illegal _ ?_⟩)))
    simp only [List.mem_cons, List.not_mem_nil, or_false, not_or]
    and_intros <;> assumption

/-- Group E (R57). -/
theorem decodeE_answer (hg : fieldG w = 0xE#4) : DecodeAnswer w (decodeE w) := by
  unfold decodeE
  split
  iterate 2 · next hnn => exact .legal (wordGXNN_eq_of_fields hg hnn)
  · refine .illegal (.inr (.inr (.inr (.inl ⟨hg, ?_⟩))))
    simp only [List.mem_cons, List.not_mem_nil, or_false, not_or]
    and_intros <;> assumption

/-- Group F (R57). -/
theorem decodeF_answer (hg : fieldG w = 0xF#4) : DecodeAnswer w (decodeF w) := by
  unfold decodeF
  split
  iterate 9 · next hnn => exact .legal (wordGXNN_eq_of_fields hg hnn)
  · refine .illegal (.inr (.inr (.inr (.inr ⟨hg, ?_⟩))))
    simp only [List.mem_cons, List.not_mem_nil, or_false, not_or]
    and_intros <;> assumption

end

/-- The inversion lemma of `decode`: group by group, it answers an instruction of that word or refuses an illegal one. -/
theorem decode_answer (w : Word) : DecodeAnswer w (decode w) := by
  unfold decode
  split
  case h_1 hg => exact decode0_answer hg
  -- groups 1, 2, A and B take NNN
  case h_2 hg | h_3 hg | h_11 hg | h_12 hg => exact .legal (wordGNNN_eq_of_fieldG hg)
  -- groups 3, 4, 6, 7 and C take X and NN
  case h_4 hg | h_5 hg | h_7 hg | h_8 hg | h_13 hg => exact .legal (wordGXNN_eq_of_fields hg rfl)
  case h_6 hg => exact decodeLow0_answer (.inl hg) (wordGXYN_eq_of_fields hg)
  case h_9 hg => exact decode8_answer hg
  case h_10 hg => exact decodeLow0_answer (.inr hg) (wordGXYN_eq_of_fields hg)
  -- group D takes X, Y and N
  case h_14 hg => exact .legal (wordGXYN_eq_of_fields hg rfl)
  case h_15 hg => exact decodeE_answer hg
  case h_16 hg => exact decodeF_answer hg
  -- no group is left over
  case h_17 =>
    exfalso
    generalize fieldG w = g at *
    revert g
    decide

/-- Settles O2: what the decoder answers has that word. -/
theorem encodeOfDecode : Obligations.EncodeOfDecode := by
  intro w i hi
  have h := decode_answer w
  rw [hi] at h
  cases h with
  | legal h => exact h

/-! ### The rows of the opcode map -/

theorem OpcodeRow.accepts_iff {r : OpcodeRow} {w : Word} : r.accepts w = true ↔ w &&& r.mask = r.pattern :=
  beq_iff_eq

/-- Two rows that one word can match agree on the bits both fix, and only a row and itself do (R52). -/
theorem row_eq_of_agree : ∀ r ∈ opcodeTable, ∀ r' ∈ opcodeTable,
    r.pattern &&& r'.mask = r'.pattern &&& r.mask → r = r' := by decide

/-- Settles O4: both rows' patterns are the word's own bits, so they agree where both fix them. -/
theorem opcodeRowsDisjoint : Obligations.OpcodeRowsDisjoint := by
  intro w r r' hr hr' h h'
  refine row_eq_of_agree r hr r' hr' ?_
  rw [← OpcodeRow.accepts_iff.mp h, ← OpcodeRow.accepts_iff.mp h', BitVec.and_assoc, BitVec.and_assoc,
    BitVec.and_comm r.mask]

/-- A field that a row fixes whole has the row's value in every word of the row. -/
theorem OpcodeRow.field_eq_of_accepts {r : OpcodeRow} {w : Word} (h : r.accepts w = true) {start len : Nat}
    (hmask : r.mask.extractLsb' start len = BitVec.allOnes len) :
    w.extractLsb' start len = r.pattern.extractLsb' start len := by
  rw [← accepts_iff.mp h, BitVec.extractLsb'_and, hmask, BitVec.and_allOnes]

theorem OpcodeRow.fieldN_eq_of_accepts {r : OpcodeRow} {w : Word} (h : r.accepts w = true)
    (hmask : fieldN r.mask = BitVec.allOnes 4) : fieldN w = fieldN r.pattern := field_eq_of_accepts h hmask

theorem OpcodeRow.fieldNN_eq_of_accepts {r : OpcodeRow} {w : Word} (h : r.accepts w = true)
    (hmask : fieldNN r.mask = BitVec.allOnes 8) : fieldNN w = fieldNN r.pattern := field_eq_of_accepts h hmask

theorem fieldG_mask : ∀ r ∈ opcodeTable, fieldG r.mask = BitVec.allOnes 4 := by decide

/-- Every row fixes the group (R53). -/
theorem OpcodeRow.fieldG_eq_of_accepts {r : OpcodeRow} {w : Word} (hr : r ∈ opcodeTable) (h : r.accepts w = true) :
    fieldG w = fieldG r.pattern := field_eq_of_accepts h (fieldG_mask r hr)

/-- The rows of group 0 are two whole words (R57). -/
theorem rows_group0 : ∀ r ∈ opcodeTable, fieldG r.pattern = 0x0#4 →
    r.mask = BitVec.allOnes 16 ∧ (r.pattern = 0x00E0#16 ∨ r.pattern = 0x00EE#16) := by decide

/-- The rows of groups 5 and 9 have low nibble 0 (R55). -/
theorem rows_group5_group9 : ∀ r ∈ opcodeTable, fieldG r.pattern = 0x5#4 ∨ fieldG r.pattern = 0x9#4 →
    fieldN r.mask = BitVec.allOnes 4 ∧ fieldN r.pattern = 0x0#4 := by decide

/-- The rows of group 8 have a fixed low nibble, and none that R58 lists (R56). -/
theorem rows_group8 : ∀ r ∈ opcodeTable, fieldG r.pattern = 0x8#4 →
    fieldN r.mask = BitVec.allOnes 4 ∧ fieldN r.pattern ∉ [0x8#4, 0x9#4, 0xA#4, 0xB#4, 0xC#4, 0xD#4, 0xF#4] := by
  decide

/-- The rows of group E have one of two low bytes (R57). -/
theorem rows_groupE : ∀ r ∈ opcodeTable, fieldG r.pattern = 0xE#4 →
    fieldNN r.mask = BitVec.allOnes 8 ∧ fieldNN r.pattern ∈ [0x9E#8, 0xA1#8] := by decide

/-- The rows of group F have one of nine low bytes (R57). -/
theorem rows_groupF : ∀ r ∈ opcodeTable, fieldG r.pattern = 0xF#4 →
    fieldNN r.mask = BitVec.allOnes 8 ∧
      fieldNN r.pattern ∈ [0x07#8, 0x0A#8, 0x15#8, 0x18#8, 0x1E#8, 0x29#8, 0x33#8, 0x55#8, 0x65#8] := by decide

/-- No row accepts a word of an illegal class: the row would be one of the word's group, and its fixed sub-opcode the
word's. -/
theorem IllegalClass.not_accepts {w : Word} (hw : IllegalClass w) {r : OpcodeRow} (hr : r ∈ opcodeTable) :
    ¬ r.accepts w = true := by
  intro h
  have hG : fieldG w = fieldG r.pattern := OpcodeRow.fieldG_eq_of_accepts hr h
  obtain ⟨hg, hcls, hret⟩ | ⟨hg, hn⟩ | ⟨hg, hn⟩ | ⟨hg, hnn⟩ | ⟨hg, hnn⟩ := hw
  · obtain ⟨hmask, hpat⟩ := rows_group0 r hr (hG ▸ hg)
    have hword : w = r.pattern := by rw [← OpcodeRow.accepts_iff.mp h, hmask, BitVec.and_allOnes]
    exact hpat.elim (fun hp => hcls (hword.trans hp)) (fun hp => hret (hword.trans hp))
  · obtain ⟨hmask, hpat⟩ := rows_group5_group9 r hr (hG ▸ hg)
    exact hn ((r.fieldN_eq_of_accepts h hmask).trans hpat)
  · obtain ⟨hmask, hpat⟩ := rows_group8 r hr (hG ▸ hg)
    exact hpat (r.fieldN_eq_of_accepts h hmask ▸ hn)
  · obtain ⟨hmask, hpat⟩ := rows_groupE r hr (hG ▸ hg)
    exact hnn (r.fieldNN_eq_of_accepts h hmask ▸ hpat)
  · obtain ⟨hmask, hpat⟩ := rows_groupF r hr (hG ▸ hg)
    exact hnn (r.fieldNN_eq_of_accepts h hmask ▸ hpat)

/-! ### The decoder against the opcode map -/

theorem legalWord_eq_false_iff {w : Word} : legalWord w = false ↔ ∀ r ∈ opcodeTable, r.accepts w = false := by
  simp only [legalWord, List.any_eq_false, Bool.not_eq_true]

/-- A word that matches no row is illegal and refused by name: an instruction's word would match its row (R58). -/
theorem refused_of_legalWord_eq_false {w : Word} (hw : legalWord w = false) :
    IllegalClass w ∧ decode w = .error (.unimplementedOpcode w) := by
  have h := decode_answer w
  generalize decode w = d at h ⊢
  cases h with
  | @legal i hi =>
    obtain ⟨r, hr, -, hacc⟩ := i.row_accepts
    rw [hi, legalWord_eq_false_iff.mp hw r hr] at hacc
    cases hacc
  | illegal hill => exact ⟨hill, rfl⟩

/-- A word that matches a row decodes to an instruction of that row: of a row of its own, and there is no other. -/
theorem decode_of_accepts {w : Word} {r : OpcodeRow} (hr : r ∈ opcodeTable) (hacc : r.accepts w = true) :
    ∃ i, decode w = .ok i ∧ i.row = some r := by
  have h := decode_answer w
  generalize decode w = d at h ⊢
  cases h with
  | @legal i hi =>
    obtain ⟨r', hr', hrow, hacc'⟩ := i.row_accepts
    rw [hi] at hacc'
    exact ⟨i, rfl, opcodeRowsDisjoint w r' r hr' hr hacc' hacc ▸ hrow⟩
  | illegal hill => exact absurd hacc (hill.not_accepts hr)

/-- Settles O3: one clause for the words that match a row, one for those that match none. -/
theorem decoderAgreesWithOpcodeMap : Obligations.DecoderAgreesWithOpcodeMap := fun _ =>
  ⟨fun _ hr hacc => decode_of_accepts hr hacc,
    fun hrows => (refused_of_legalWord_eq_false (legalWord_eq_false_iff.mpr hrows)).2⟩

/-! ### Illegal words in a step -/

/-- The illegal words are those of the classes of R58. -/
theorem legalWord_eq_false_iff_illegalClass {w : Word} : legalWord w = false ↔ IllegalClass w :=
  ⟨fun hw => (refused_of_legalWord_eq_false hw).1,
    fun hill => legalWord_eq_false_iff.mpr fun _ hr => Bool.eq_false_iff.mpr (hill.not_accepts hr)⟩

namespace Machine

variable {s : State}

/-- A fetched illegal word is the error of the decode (R58, R62). -/
theorem State.fetchInstr_of_legalWord_eq_false {w : Word} (hf : s.fetch = .ok w) (hw : legalWord w = false) :
    s.fetchInstr = .error (.unimplementedOpcode s.pc w) := by
  simp only [State.fetchInstr, hf, (refused_of_legalWord_eq_false hw).2]

theorem step_of_fetchInstr_error {f : Fault} (h : s.fetchInstr = .error f) : step s = .fault f := by
  simp only [step, h, raise]

/-- An error before the instruction leaves the host the state it had, whatever the random byte (R66). -/
theorem hostStep_of_fetchInstr_error {f : Fault} (h : s.fetchInstr = .error f) (r : Byte) :
    hostStep r s = (.error f, s) := by
  simp only [hostStep, stepWith, h, raise]

/-- Settles O5: the classes of R58, and the error of the decode in a step and in the host's step. -/
theorem illegalWordsRaise : Obligations.IllegalWordsRaise := by
  intro w
  refine ⟨legalWord_eq_false_iff_illegalClass, fun s hf hw => ?_⟩
  have h := State.fetchInstr_of_legalWord_eq_false hf hw
  exact ⟨step_of_fetchInstr_error h, hostStep_of_fetchInstr_error h⟩

end Machine

/-- Settles O6: eight closed words, each decoded. -/
theorem specWordsDecode : Obligations.SpecWordsDecode := by
  refine ⟨?_, ?_, ?_, ?_, ?_, ?_, ?_, ?_⟩ <;> decide

end Sys2Proof
end

section
/-! PROOFS. One step (spec/40_step_cycle.md R61 to R69): what an instruction, a step and the host's step can answer, each
said once; the order of a step's errors; where pc goes; who reads the random byte. -/

namespace Sys2Proof.Machine

variable {i : Instr} {s t : State}

/-! ### What an instruction can answer -/

/-- `Answers i s`: the instruction goes on, or raises the one error of its own (R65, R108). -/
def Answers (i : Instr) (s : State) : Prop := (∃ t, exec i s = .next t) ∨ ∃ f, OwnError i s f ∧ exec i s = .fault f

/-- The instructions with a guard: under `p` they go on, else they raise. -/
theorem answers_of_guarded {p : Prop} {u : p → State} {f : Fault} (hf : OwnError i s f)
    (hpos : ∀ hp : p, exec i s = .next (u hp)) (hneg : ¬ p → exec i s = .fault f) : Answers i s := by
  by_cases hp : p
  · exact .inl ⟨_, hpos hp⟩
  · exact .inr ⟨f, hf, hneg hp⟩

/-- Every instruction of the opcode map has a meaning: a next state, or its own error. -/
theorem exec_answers (i : Instr) (s : State) : Answers i s := by
  cases i with
  | ret =>
    have hk (hp : s.SP.val ≠ 0) : s.SP.val = s.SP.val - 1 + 1 := by omega
    exact answers_of_guarded rfl (fun hp => exec_ret_next s ⟨s.SP.val - 1, by omega⟩ (hk hp))
      (fun hp => exec_ret_empty s (not_ne_iff.mp hp))
  | call nnn => exact answers_of_guarded rfl (exec_call_next s nnn) (fun hp => exec_call_full s nnn (by omega))
  | skp x => exact answers_of_guarded rfl (exec_skp_next s x) (fun hp => exec_skp_bad s x (by omega))
  | sknp x => exact answers_of_guarded rfl (exec_sknp_next s x) (fun hp => exec_sknp_bad s x (by omega))
  | ldVxK x =>
    cases hk : s.lowestKey with
    | none => exact .inl ⟨s, exec_ldVxK_wait s x (s.lowestKey_eq_none.mp hk)⟩
    | some k => exact .inl ⟨_, exec_ldVxK_next s x k hk⟩
  | drw x y n =>
    exact answers_of_guarded rfl (exec_drw_next s x y n) (fun hp => exec_drw_out s x y n (by omega) (by omega))
  | ldBVx x => exact answers_of_guarded rfl (exec_ldBVx_next s x) (fun hp => exec_ldBVx_out s x (by omega))
  | ldMemVx x => exact answers_of_guarded rfl (exec_ldMemVx_next s x) (fun hp => exec_ldMemVx_out s x (by omega))
  | ldVxMem x => exact answers_of_guarded rfl (exec_ldVxMem_next s x) (fun hp => exec_ldVxMem_out s x (by omega))
  | _ => exact .inl ⟨_, rfl⟩

theorem exec_ne_refused (i : Instr) (s : State) (r : Refusal) : exec i s ≠ .refused r := by
  obtain ⟨t, h⟩ | ⟨f, -, h⟩ := exec_answers i s
  · rw [h]; nofun
  · rw [h]; nofun

/-! ### What a step can answer -/

theorem stepWith_of_fetchInstr_error {f : Fault} (h : s.fetchInstr = .error f) (r : Byte) : stepWith r s = .fault f := by
  simp only [stepWith, h, raise]

theorem stepWith_of_rnd {x : RegIdx} {nn : Byte} (h : s.fetchInstr = .ok (.rnd x nn)) (r : Byte) :
    stepWith r s = rndWith r x nn s := by
  simp only [stepWith, h]

theorem stepWith_of_ne_rnd (h : s.fetchInstr = .ok i) (hi : ∀ x nn, i ≠ .rnd x nn) (r : Byte) :
    stepWith r s = exec i s := by
  unfold stepWith
  split
  · next h' => cases h.symm.trans h'
  · next h' => cases h.symm.trans h'; exact absurd rfl (hi _ _)
  · next h' => cases h.symm.trans h'; rfl

/-- `Fetched s`: a step of `s` ends before its instruction, or runs a CXNN, or runs another instruction. -/
inductive Fetched (s : State) : Prop
  /-- The error of the fetch or of the decode (R61, R62). -/
  | error (f : Fault) (h : s.fetchInstr = .error f)
  /-- CXNN, the one instruction that reads the random byte (R69). -/
  | rnd (x : RegIdx) (nn : Byte) (h : s.fetchInstr = .ok (.rnd x nn))
  /-- Any other instruction. -/
  | other (i : Instr) (h : s.fetchInstr = .ok i) (hi : ∀ x nn, i ≠ .rnd x nn)

theorem State.fetched (s : State) : Fetched s := by
  cases h : s.fetchInstr with
  | error f => exact .error f h
  | ok i =>
    by_cases hi : ∃ x nn, i = .rnd x nn
    · obtain ⟨x, nn, rfl⟩ := hi
      exact .rnd x nn h
    · exact .other i h fun x nn hx => hi ⟨x, nn, hx⟩

/-- A step of the host that goes on has run an instruction fetched from 0..4094, whatever its random byte (R61, R69). -/
theorem stepWith_next {r : Byte} (h : stepWith r s = .next t) : ∃ i, s.pc.toNat ≤ 4094 ∧ ExecShape s i t := by
  cases s.fetched with
  | error f hf => rw [stepWith_of_fetchInstr_error hf] at h; cases h
  | rnd x nn hf =>
    rw [stepWith_of_rnd hf] at h
    exact ⟨_, (State.fetchInstr_ok hf).1, (ExecShape.rnd x nn _).of_next h⟩
  | other i hf hi =>
    rw [stepWith_of_ne_rnd hf hi] at h
    exact ⟨i, (State.fetchInstr_ok hf).1, execShape_of_next h⟩

theorem stepWith_ne_refused (r : Byte) (s : State) (q : Refusal) : stepWith r s ≠ .refused q := by
  cases s.fetched with
  | error f hf => rw [stepWith_of_fetchInstr_error hf]; nofun
  | rnd x nn hf => rw [stepWith_of_rnd hf]; nofun
  | other i hf hi => rw [stepWith_of_ne_rnd hf hi]; exact exec_ne_refused i s q

/-- The step of the model is the step with the free value of log 1 as its byte. -/
theorem step_eq_stepWith (s : State) : step s = stepWith (Config.randomByte s.draws) s := by
  cases s.fetched with
  | error f hf => rw [stepWith_of_fetchInstr_error hf, step_of_fetchInstr_error hf]
  | rnd x nn hf => rw [stepWith_of_rnd hf, step_of_fetchInstr hf]; rfl
  | other i hf hi => rw [stepWith_of_ne_rnd hf hi, step_of_fetchInstr hf]

/-- Settles O46: neither the errors before the instruction nor the instruction's answers are refusals. -/
theorem stepIsNeverRefused : Obligations.StepIsNeverRefused := fun s q => by
  rw [step_eq_stepWith]
  exact stepWith_ne_refused _ s q

/-- Settles O48: CXNN is the only instruction the random byte is given to, and it writes the byte under its mask. -/
theorem onlyRndReadsRandomByte : Obligations.OnlyRndReadsRandomByte := by
  intro s
  refine ⟨step_eq_stepWith s, fun hne r r' => ?_, fun x nn hf r r' hmask => ?_⟩
  · cases s.fetched with
    | error f hf => rw [stepWith_of_fetchInstr_error hf, stepWith_of_fetchInstr_error hf]
    | rnd x nn hf => exact absurd hf (hne x nn)
    | other i hf hi => rw [stepWith_of_ne_rnd hf hi, stepWith_of_ne_rnd hf hi]
  · rw [stepWith_of_rnd hf, stepWith_of_rnd hf, rndWith, rndWith, hmask]

/-! ### The word at pc, and the errors of the fetch and the decode -/

/-- The word at pc is big-endian (R35). -/
theorem State.wordAtPc_eq_u16 (s : State) :
    s.wordAtPc = u16 ((s.M.read s.pc.toNat).toNat * 256 + (s.M.read (s.pc.toNat + 1)).toNat) :=
  wordOfBytes_eq_u16 _ _

/-- A refusal of the decoder names the word it was given (R58). -/
theorem decode_error_word {w w' : Word} (h : decode w = .error (.unimplementedOpcode w')) : w' = w := by
  have ha := decode_answer w
  rw [h] at ha
  cases ha with
  | illegal => rfl

/-- Settles O7: the fetch answers the instruction of the word at pc, and the step runs what the fetch answers. -/
theorem stepRunsDecodedInstruction : Obligations.StepRunsDecodedInstruction := by
  intro s i hpc hd
  rw [← s.wordAtPc_eq_u16] at hd
  exact step_of_fetchInstr (s.fetchInstr_of_ok hpc hd)

/-- Settles O8: the fetch checks pc first, then decodes, and its error is the step's. -/
theorem fetchErrorsComeFirst : Obligations.FetchErrorsComeFirst := by
  intro s
  refine ⟨fun hpc => step_of_fetchInstr_error (s.fetchInstr_of_out hpc), ?_⟩
  rintro w w' hpc hw hd
  obtain rfl : w' = w := decode_error_word hd
  rw [← s.wordAtPc_eq_u16] at hw
  exact ⟨rfl, step_of_fetchInstr_error (s.fetchInstr_of_error hpc (hw ▸ hd))⟩

/-! ### What the host's step reports -/

/-- The next step waits exactly when it is an FX0A with no key pressed (R65, R104). -/
theorem State.waits_iff (s : State) :
    s.waits = true ↔ (∃ x, s.fetchInstr = .ok (.ldVxK x)) ∧ ∀ k : Fin 16, s.KEY[k.val] = false := by
  rw [← s.lowestKey_eq_none]
  unfold State.waits
  split
  · next x hf => simp [hf]
  · next hne => exact iff_of_false nofun fun ⟨⟨x, hf⟩, _⟩ => hne x hf

theorem hostStep_of_next {r : Byte} (h : stepWith r s = .next t) :
    hostStep r s = (if s.waits then .waiting else .executed, t) := by
  simp only [hostStep, h]

theorem hostStep_of_fault {r : Byte} {f : Fault} (h : stepWith r s = .fault f) : hostStep r s = (.error f, s) := by
  simp only [hostStep, h]

/-- A waiting step changes nothing (R66, R104). -/
theorem hostStep_of_waits (h : s.waits = true) (r : Byte) : hostStep r s = (.waiting, s) := by
  obtain ⟨⟨x, hf⟩, hkeys⟩ := s.waits_iff.mp h
  have hstep : stepWith r s = .next s := by rw [stepWith_of_ne_rnd hf nofun, exec_ldVxK_wait s x hkeys]
  rw [hostStep_of_next hstep, if_pos h]

/-- Settles O47: a step waits, or else raises or goes on, since it is never refused. -/
theorem hostStepOutcomes : Obligations.HostStepOutcomes := by
  intro r s
  split
  · next hw => exact hostStep_of_waits (s.waits_iff.mpr hw) r
  · next hw =>
    have hnw : ¬ s.waits = true := mt s.waits_iff.mp hw
    cases h : stepWith r s with
    | next t => exact .inr ⟨t, rfl, by rw [hostStep_of_next h, if_neg hnw]⟩
    | fault f => exact .inl ⟨f, rfl, hostStep_of_fault h⟩
    | refused q => exact absurd h (stepWith_ne_refused r s q)

/-! ### Where pc goes (R63) -/

/-- A sequential instruction goes on to the next one: its shape is none of those that set pc. -/
theorem ExecShape.pcPlus_of_sequential (h : ExecShape s i t) (hi : pcClass i = .sequential) : PcPlus 2 s t := by
  cases h with
  | jump hj => cases hj.symm.trans hi
  | skip _ hs => cases hs.symm.trans hi
  | call | ret | wait => cases hi
  | _ => exact pcPlus_nextInstr s _ rfl

/-- A skip goes 2 or 4 on. -/
theorem ExecShape.pcPlus_of_skip (h : ExecShape s i t) (hi : pcClass i = .skip) : PcPlus 2 s t ∨ PcPlus 4 s t := by
  cases h with
  | skip c =>
    cases c with
    | false => exact .inl (pcPlus_skipIf s false)
    | true => exact .inr (pcPlus_skipIf s true)
  | jump hj => cases hj.symm.trans hi
  | call | ret | wait => cases hi
  | _ => exact .inl (pcPlus_nextInstr s _ rfl)

theorem State.offsetTarget_toNat (s : State) (nnn : Addr12) :
    (s.offsetTarget nnn).toNat = nnn.toNat + (s.reg 0x0#4).toNat := by
  have := nnn.isLt
  have := (s.reg 0x0#4).isLt
  rw [State.offsetTarget, u16_toNat]
  omega

theorem pc_of_exec_call {nnn : Addr12} (h : exec (.call nnn) s = .next t) : t.pc = target nnn := by
  by_cases hSP : s.SP.val < 16
  · rw [exec_call_next s nnn hSP] at h
    cases h
    rfl
  · rw [exec_call_full s nnn (by omega)] at h
    cases h

theorem pc_of_exec_jump (h : exec i s = .next t) (hi : pcClass i = .jump) :
    (∃ nnn : Addr12, (i = .jp nnn ∨ i = .call nnn) ∧ t.pc.toNat = nnn.toNat) ∨
      ∃ nnn : Addr12, i = .jpV0 nnn ∧ t.pc.toNat = nnn.toNat + (s.reg 0x0#4).toNat := by
  cases i with
  | jp nnn =>
    cases h
    exact .inl ⟨nnn, .inl rfl, target_toNat nnn⟩
  | call nnn => exact .inl ⟨nnn, .inr rfl, by rw [pc_of_exec_call h, target_toNat]⟩
  | jpV0 nnn =>
    cases h
    exact .inr ⟨nnn, rfl, s.offsetTarget_toNat nnn⟩
  | _ => cases hi

theorem pc_of_exec_ret (h : exec .ret s = .next t) :
    ∃ k : Fin 16, s.SP.val = k.val + 1 ∧ t.pc.toNat = (s.S[k.val].toNat + 2) % 65536 := by
  by_cases hSP : s.SP.val = 0
  · rw [exec_ret_empty s hSP] at h
    cases h
  · have hk : s.SP.val = s.SP.val - 1 + 1 := by omega
    rw [exec_ret_next s ⟨s.SP.val - 1, by omega⟩ hk] at h
    cases h
    exact ⟨_, hk, u16_toNat _⟩

theorem pc_of_exec_ldVxK {x : RegIdx} (h : exec (.ldVxK x) s = .next t) :
    if ∀ k : Fin 16, s.KEY[k.val] = false then t = s else PcPlus 2 s t := by
  split
  · next hkeys =>
    rw [exec_ldVxK_wait s x hkeys] at h
    exact (Host.Outcome.next.inj h).symm
  · next hkeys =>
    obtain ⟨k, hk⟩ := Option.ne_none_iff_exists'.mp (mt s.lowestKey_eq_none.mp hkeys)
    rw [exec_ldVxK_next s x k hk] at h
    cases h
    exact pcPlus_nextInstr s _ rfl

/-- Settles O40: class by class. -/
theorem pcAdvancesByClass : Obligations.PcAdvancesByClass := by
  intro i s t h
  refine ⟨(execShape_of_next h).pcPlus_of_sequential, pc_of_exec_jump h, fun hi => ?_,
    (execShape_of_next h).pcPlus_of_skip, fun hi => ?_⟩
  · cases i with
    | ret => exact pc_of_exec_ret h
    | _ => cases hi
  · cases i with
    | ldVxK x => exact pc_of_exec_ldVxK h
    | _ => cases hi

end Sys2Proof.Machine
end

section
/-! PROOFS. The invariant under the host's operations (spec/60_exceptions.md R116 to R119, spec/70_reset_and_hazards.md
R129 to R131): each operation keeps it, so it holds of every state a sequence of operations reaches. -/

namespace Sys2Proof.Machine

variable {s t : State}

/-- The invariant only looks at memory, pc and the stack. -/
theorem Inv.of_same (h : Inv s) (hM : t.M = s.M) (hpc : t.pc = s.pc) (hS : t.S = s.S) (hSP : t.SP = s.SP) : Inv t := by
  obtain ⟨hwf, hp, hst⟩ := h
  exact ⟨hM ▸ hwf, by rwa [PcInv, hpc], stackInv_of_same hS hSP hst⟩

/-- A reset leaves the reset state, but for the model's own counter (R129, log 17). -/
theorem inv_resetAgain (s : State) : Inv s.resetAgain := resetHasInv.of_same rfl rfl rfl rfl

/-- A ROM that fits is copied inside 0..4095 (R130). -/
theorem Inv.loadRom (h : Inv s) {bytes : List Byte} (hfits : bytes.length ≤ 3584) : Inv (s.loadRom bytes) := by
  obtain ⟨hwf, hpc, hS⟩ := h
  exact ⟨Memory.wf_writeBytes bytes hwf (by unfold Config.progStart Config.memSize; omega), hpc, hS⟩

theorem Inv.hostLoad (h : Inv s) (bytes : List Byte) : Inv (hostLoad bytes s).2 := by
  unfold Machine.hostLoad
  split
  · next hfits => exact h.loadRom ((romFits_eq_true bytes).mp hfits)
  · exact h

/-- A step keeps the invariant whatever its random byte; an error leaves the state as it was (R66). -/
theorem Inv.hostStep (h : Inv s) (r : Byte) : Inv (hostStep r s).2 := by
  cases hstep : stepWith r s with
  | next t =>
    obtain ⟨i, hpc, hshape⟩ := stepWith_next hstep
    rw [hostStep_of_next hstep]
    exact hshape.inv hpc h
  | fault f => rwa [hostStep_of_fault hstep]
  | refused q => exact absurd hstep (stepWith_ne_refused r s q)

/-- A key write changes one latch, a refused one nothing (R119). -/
theorem Inv.hostSetKey (h : Inv s) (k : Nat) (down : Bool) : Inv (hostSetKey k down s).2 := by
  unfold Machine.hostSetKey
  by_cases hk : k < 16
  · rw [s.setKey_of_lt down hk]
    exact h.of_same rfl rfl rfl rfl
  · rwa [s.setKey_of_ge down (by omega)]

/-- Every operation on a machine that has been reset keeps the invariant. -/
theorem Inv.performAfterReset (h : Inv s) (op : HostOp) : Inv (performAfterReset op s).2 := by
  cases op with
  | reset => exact inv_resetAgain s
  | loadProgram bytes => exact (inv_resetAgain s).hostLoad bytes
  | step r => exact h.hostStep r
  | tickTimers | acknowledgeRedraw => exact h.of_same rfl rfl rfl rfl
  | setKeyDown k => exact h.hostSetKey k true
  | setKeyUp k => exact h.hostSetKey k false
  | readFramebuffer | readSound => exact h

/-- An operation before the first reset leaves no state, or a just-reset one, with a ROM or without (R131, R132). -/
theorem inv_performBeforeReset {op : HostOp} (h : (performBeforeReset op).2 = some t) : Inv t := by
  cases op with
  | reset => cases h; exact resetHasInv
  | loadProgram bytes => cases h; exact resetHasInv.hostLoad bytes
  | _ => cases h

/-- `InvIfReset o`: the machine is before its first reset, or its state has the invariant. -/
def InvIfReset (o : Option State) : Prop := ∀ t, o = some t → Inv t

theorem InvIfReset.perform {o : Option State} (h : InvIfReset o) (op : HostOp) : InvIfReset (perform op o).2 := by
  intro t ht
  cases o with
  | none => exact inv_performBeforeReset ht
  | some s => cases ht; exact (h s rfl).performAfterReset op

theorem InvIfReset.runHost {o : Option State} (h : InvIfReset o) (ops : List HostOp) : InvIfReset (runHost ops o).2 := by
  induction ops generalizing o with
  | nil => exact h
  | cons op ops ih => exact ih (h.perform op)

/-- Settles O56: operation by operation, after the first reset and before it. -/
theorem everyHostOperationKeepsInv : Obligations.EveryHostOperationKeepsInv := by
  refine ⟨fun op s t reply hs h => ?_, fun op t reply h => ?_⟩
  · obtain rfl : (performAfterReset op s).2 = t := Option.some.inj (congrArg Prod.snd h)
    exact hs.performAfterReset op
  · exact inv_performBeforeReset (congrArg Prod.snd h)

/-- Settles O39: at power-on there is no state, and every operation of the sequence keeps the invariant. -/
theorem everyHostRunHasInv : Obligations.EveryHostRunHasInv := by
  intro ops
  have hpowerOn : InvIfReset none := nofun
  exact hpowerOn.runHost ops

end Sys2Proof.Machine
end

section
/-! PROOFS. Control flow (spec/41_control_flow.md R71 to R78): where each jump, skip, call and return goes, and what it
leaves unchanged; a return undoes the call before it. -/

namespace Sys2Proof.Machine

variable {s t u : State}

/-! ### The frame of a call and of a return -/

/-- The frame of an instruction that writes only the stack and pc. -/
def OnlyStackAndPc (s t : State) : Prop :=
  SameRegsExcept [] s t ∧ t.I = s.I ∧ SameMemory s t ∧ SameDisplay s t ∧ SameTimers s t ∧ SameKeys s t

theorem onlyStackAndPc_setPc (s : State) (S : Vector Word 16) (SP : Fin 17) (w : Word) :
    OnlyStackAndPc s (({ s with S := S, SP := SP } : State).setPc w) :=
  ⟨fun _ _ => rfl, rfl, fun _ => rfl, ⟨fun _ _ => rfl, rfl⟩, ⟨rfl, rfl⟩, fun _ => rfl⟩

theorem OnlyStackAndPc.trans (hst : OnlyStackAndPc s t) (htu : OnlyStackAndPc t u) : OnlyStackAndPc s u := by
  obtain ⟨hV, hI, hM, ⟨hFB, hRD⟩, ⟨hDT, hST⟩, hKEY⟩ := hst
  obtain ⟨hV', hI', hM', ⟨hFB', hRD'⟩, ⟨hDT', hST'⟩, hKEY'⟩ := htu
  exact ⟨fun r hr => (hV' r hr).trans (hV r hr), hI'.trans hI, fun a => (hM' a).trans (hM a),
    ⟨fun x y => (hFB' x y).trans (hFB x y), hRD'.trans hRD⟩, ⟨hDT'.trans hDT, hST'.trans hST⟩,
    fun k => (hKEY' k).trans (hKEY k)⟩

/-! ### What a comparing skip does -/

theorem skipIf_beq (s : State) (a b : Byte) :
    PcPlus (if a = b then 4 else 2) s (s.skipIf (a == b)) ∧ OnlyRegsAndPc [] s (s.skipIf (a == b)) :=
  ⟨by simpa only [beq_iff_eq] using pcPlus_skipIf s (a == b), onlyRegsAndPc_skipIf s _⟩

theorem skipIf_bne (s : State) (a b : Byte) :
    PcPlus (if a = b then 2 else 4) s (s.skipIf (a != b)) ∧ OnlyRegsAndPc [] s (s.skipIf (a != b)) :=
  ⟨by simpa only [bne_iff_ne, ne_eq, ite_not] using pcPlus_skipIf s (a != b), onlyRegsAndPc_skipIf s _⟩

/-! ### Returns and calls -/

/-- Settles O9: on `k + 1` entries the entry popped is number `k`, and no entry is written. -/
theorem retResult : Obligations.RetResult := by
  refine ⟨decode_encode .ret, fun s => ⟨exec_ret_empty s, fun k hk => ?_⟩⟩
  exact ⟨_, exec_ret_next s k hk, rfl, u16_toNat _, fun _ => rfl, onlyStackAndPc_setPc s s.S _ _⟩

/-- Settles O11: with `k` entries the entry pushed is number `k`, and no other is written. -/
theorem callResult : Obligations.CallResult := by
  refine fun nnn s => ⟨decode_encode (.call nnn), exec_call_full s nnn, fun k hk => ?_⟩
  have hroom : s.SP.val < 16 := hk ▸ k.isLt
  obtain rfl : k = ⟨s.SP.val, hroom⟩ := Fin.ext hk.symm
  refine ⟨_, exec_call_next s nnn hroom, ?_, rfl, target_toNat nnn, fun j hj => ?_, onlyStackAndPc_setPc s _ _ _⟩
  · exact Vector.getElem_set_self hroom
  · exact Vector.getElem_set_ne hroom j.isLt (fun h => hj (Fin.ext h.symm))

/-- Settles O15: the call leaves its own address on top of the stack, which is the entry the return pops. -/
theorem returnResumesAfterCall : Obligations.ReturnResumesAfterCall := by
  intro nnn s hroom
  obtain ⟨-, -, hcall⟩ := callResult nnn s
  obtain ⟨t, hexec, htop, hSP, -, hbelow, hframe⟩ := hcall ⟨s.SP.val, hroom⟩ rfl
  obtain ⟨-, hret⟩ := retResult.2 t
  obtain ⟨u, hexec', hSP', hpc, hS, hframe'⟩ := hret ⟨s.SP.val, hroom⟩ hSP
  refine ⟨t, u, hexec, hexec', ?_, Fin.ext hSP', fun k hk => ?_, OnlyStackAndPc.trans hframe hframe'⟩
  · rw [PcPlus, hpc, htop]
  · rw [hS k, hbelow k (Fin.ne_of_lt hk)]

/-! ### Jumps -/

/-- Settles O10: the jump only sets pc, and setting pc to what it is changes nothing. -/
theorem jpResult : Obligations.JpResult := by
  refine fun nnn s => ⟨decode_encode (.jp nnn), s.setPc (target nnn), rfl, target_toNat nnn,
    onlyRegsAndPc_setPc s _, fun h => ?_⟩
  have hpc : target nnn = s.pc := BitVec.eq_of_toNat_eq ((target_toNat nnn).trans h.symm)
  rw [hpc]
  rfl

/-- Settles O12: NNN + V0 fits 16 bits, so pc holds it unreduced. -/
theorem jpV0Result : Obligations.JpV0Result := fun nnn s =>
  ⟨decode_encode (.jpV0 nnn), s.setPc (s.offsetTarget nnn), rfl, s.offsetTarget_toNat nnn, onlyRegsAndPc_setPc s _⟩

/-! ### Skips -/

/-- Settles O13: both are `State.skipIf` on a comparison of Vx with NN. -/
theorem skipImmediateResult : Obligations.SkipImmediateResult := fun x nn s =>
  ⟨⟨decode_encode (.seImm x nn), _, rfl, skipIf_beq s (s.reg x) nn⟩,
    ⟨decode_encode (.sneImm x nn), _, rfl, skipIf_bne s (s.reg x) nn⟩⟩

/-- Settles O14: both are `State.skipIf` on a comparison of Vx with Vy. -/
theorem skipRegisterResult : Obligations.SkipRegisterResult := fun x y s =>
  ⟨⟨decode_encode (.seReg x y), _, rfl, skipIf_beq s (s.reg x) (s.reg y)⟩,
    ⟨decode_encode (.sneReg x y), _, rfl, skipIf_bne s (s.reg x) (s.reg y)⟩⟩

end Sys2Proof.Machine
end

section
/-! PROOFS. Loads and arithmetic (spec/42_alu.md R79 to R90): every instruction here is one register write, or one register
write and then its flag, so what is left of each rule is the value written. -/

namespace Sys2Proof.Machine

/-! ### The two ways to write a result -/

/-- A register write without a flag completes with the value in Vx (R79 to R84). -/
theorem writeReg_completes (s : State) (x : RegIdx) (b : Byte) :
    ∃ t, s.writeReg x b = .next t ∧ t.reg x = b ∧ PcPlus 2 s t ∧ OnlyRegsAndPc [x] s t :=
  ⟨_, rfl, s.reg_setReg_same x b, pcPlus_nextInstr s _ rfl, onlyRegsAndPc_writeReg s x b⟩

/-- A register write with a flag completes with the flag in VF, and with the value in Vx unless that is VF (R68). -/
theorem writeRegFlag_completes (s : State) (x : RegIdx) (b f : Byte) :
    ∃ t, s.writeRegFlag x b f = .next t ∧ (x ≠ VF → t.reg x = b) ∧ t.reg VF = f ∧ PcPlus 2 s t ∧
      OnlyRegsAndPc [x, VF] s t := by
  refine ⟨_, rfl, fun hx => ?_, State.reg_setFlag _ f, pcPlus_nextInstr s _ rfl, onlyRegsAndPc_writeRegFlag s x b f⟩
  rw [State.reg_nextInstr, State.reg_setFlag_other _ _ hx, State.reg_setReg_same]

/-! ### The values written -/

theorem flagByte_toNat (c : Bool) : (flagByte c).toNat = if c then 1 else 0 := by
  cases c <;> rfl

theorem carry_toNat (a b : Byte) : (carry a b).toNat = if a.toNat + b.toNat > 255 then 1 else 0 := by
  simp only [carry, flagByte_toNat, decide_eq_true_eq]

theorem notBorrow_toNat (a b : Byte) : (notBorrow a b).toNat = if b.toNat > a.toNat then 0 else 1 := by
  simp only [notBorrow, flagByte_toNat, Bool.not_eq_true', decide_eq_false_iff_not, ite_not]

/-- Bit 0 is the parity of the byte (R87). -/
theorem shiftedOutRight_toNat (a : Byte) : (shiftedOutRight a).toNat = if a.getLsbD 0 then 1 else 0 := by
  have hbit : a.getLsbD 0 = decide (a.toNat % 2 = 1) := by simp [BitVec.getLsbD, Nat.testBit_zero]
  simp only [shiftedOutRight, u8_toNat, hbit, decide_eq_true_eq]
  split <;> omega

/-- Bit 7 is set exactly in the bytes from 128 on (R89). -/
theorem shiftedOutLeft_toNat (a : Byte) : (shiftedOutLeft a).toNat = if a.getLsbD 7 then 1 else 0 := by
  have hlt := a.isLt
  have hbit : a.getLsbD 7 = decide (128 ≤ a.toNat) := BitVec.msb_eq_decide a
  simp only [shiftedOutLeft, u8_toNat, hbit, decide_eq_true_eq]
  split <;> omega

theorem u8_half (a : Byte) : u8 (a.toNat / 2) = a >>> 1 := by
  have hlt := a.isLt
  refine BitVec.eq_of_toNat_eq ?_
  rw [u8_toNat, BitVec.toNat_ushiftRight, Nat.shiftRight_eq_div_pow]
  omega

theorem u8_double (a : Byte) : u8 (a.toNat * 2) = a <<< 1 := by
  refine BitVec.eq_of_toNat_eq ?_
  rw [u8_toNat, BitVec.toNat_shiftLeft, Nat.shiftLeft_eq]

/-! ### Loads and logic -/

/-- Settles O16: both are a register write, of NN and of the sum reduced by u8. -/
theorem immediateResult : Obligations.ImmediateResult := by
  refine fun x nn s => ⟨⟨decode_encode (.ldImm x nn), writeReg_completes s x nn⟩, decode_encode (.addImm x nn), ?_⟩
  obtain ⟨t, hexec, hx, hframe⟩ := writeReg_completes s x (u8 ((s.reg x).toNat + nn.toNat))
  exact ⟨t, hexec, by rw [hx, u8_toNat], hframe⟩

/-- Settles O17: each is a register write of Vy, or of the bitwise operation on Vx and Vy. -/
theorem copyAndLogicResult : Obligations.CopyAndLogicResult := by
  intro x y s
  refine ⟨⟨decode_encode (.ldReg x y), writeReg_completes s x (s.reg y)⟩, ⟨decode_encode (.or x y), ?_⟩,
    ⟨decode_encode (.and x y), ?_⟩, decode_encode (.xor x y), ?_⟩
  · obtain ⟨t, hexec, hx, hframe⟩ := writeReg_completes s x (s.reg x ||| s.reg y)
    exact ⟨t, hexec, fun k => by rw [hx, BitVec.getLsbD_or], hframe⟩
  · obtain ⟨t, hexec, hx, hframe⟩ := writeReg_completes s x (s.reg x &&& s.reg y)
    exact ⟨t, hexec, fun k => by rw [hx, BitVec.getLsbD_and], hframe⟩
  · obtain ⟨t, hexec, hx, hframe⟩ := writeReg_completes s x (s.reg x ^^^ s.reg y)
    exact ⟨t, hexec, fun k => by rw [hx, BitVec.getLsbD_xor], hframe⟩

/-! ### Sums and differences -/

/-- Settles O18: the sum reduced by u8, then the carry of the unreduced sum. -/
theorem addRegisterResult : Obligations.AddRegisterResult := by
  intro x y s
  obtain ⟨t, hexec, hx, hVF, hframe⟩ :=
    writeRegFlag_completes s x (u8 ((s.reg x).toNat + (s.reg y).toNat)) (carry (s.reg x) (s.reg y))
  exact ⟨decode_encode (.addReg x y), t, hexec, fun h => by rw [hx h, u8_toNat], by rw [hVF, carry_toNat], hframe⟩

/-- Writing `a - b` and its flag, for either order of the operands (R86, R88). -/
theorem writeDifference_completes (s : State) (x : RegIdx) (a b : Byte) :
    ∃ t, s.writeRegFlag x (u8 (a.toNat + 256 - b.toNat)) (notBorrow a b) = .next t ∧
      (x ≠ VF → (t.reg x).toNat = (a.toNat + 256 - b.toNat) % 256) ∧
      (t.reg VF).toNat = (if b.toNat > a.toNat then 0 else 1) ∧ PcPlus 2 s t ∧ OnlyRegsAndPc [x, VF] s t := by
  obtain ⟨t, hexec, hx, hVF, hframe⟩ :=
    writeRegFlag_completes s x (u8 (a.toNat + 256 - b.toNat)) (notBorrow a b)
  exact ⟨t, hexec, fun h => by rw [hx h, u8_toNat], by rw [hVF, notBorrow_toNat], hframe⟩

/-- Settles O19: the difference Vx - Vy. -/
theorem subtractResult : Obligations.SubtractResult := fun x y s =>
  ⟨decode_encode (.sub x y), writeDifference_completes s x (s.reg x) (s.reg y)⟩

/-- Settles O20: the difference Vy - Vx. -/
theorem reverseSubtractResult : Obligations.ReverseSubtractResult := fun x y s =>
  ⟨decode_encode (.subn x y), writeDifference_completes s x (s.reg y) (s.reg x)⟩

/-! ### Shifts -/

/-- Settles O21: halving and doubling are the shifts by one bit, and the flag is the bit they drop. -/
theorem shiftResult : Obligations.ShiftResult := by
  refine fun x y s => ⟨⟨decode_encode (.shr x y), ?_⟩, decode_encode (.shl x y), ?_⟩
  · obtain ⟨t, hexec, hx, hVF, hframe⟩ :=
      writeRegFlag_completes s x (u8 ((s.reg x).toNat / 2)) (shiftedOutRight (s.reg x))
    exact ⟨t, hexec, fun h => by rw [hx h, u8_half], by rw [hVF, shiftedOutRight_toNat], hframe⟩
  · obtain ⟨t, hexec, hx, hVF, hframe⟩ :=
      writeRegFlag_completes s x (u8 ((s.reg x).toNat * 2)) (shiftedOutLeft (s.reg x))
    exact ⟨t, hexec, fun h => by rw [hx h, u8_double], by rw [hVF, shiftedOutLeft_toNat], hframe⟩

/-! ### The random byte -/

/-- CXNN for any random byte (R90): the draw counted is the model's own field, which no frame speaks of (log 1). -/
theorem rndWith_completes (r : Byte) (x : RegIdx) (nn : Byte) (s : State) :
    ∃ t, rndWith r x nn s = .next t ∧ t.reg x = r &&& nn ∧
      (∀ k, nn.getLsbD k = false → (t.reg x).getLsbD k = false) ∧ PcPlus 2 s t ∧ OnlyRegsAndPc [x] s t := by
  obtain ⟨t, hexec, hx, hpc, hframe⟩ := writeReg_completes s.countDraw x (r &&& nn)
  refine ⟨t, hexec, hx, fun k hk => ?_, hpc, hframe⟩
  rw [hx, BitVec.getLsbD_and, hk, Bool.and_false]

/-- Settles O22: the free value of this draw is one of the bytes of `rndWith_completes`. -/
theorem randomResult : Obligations.RandomResult := fun x nn s =>
  ⟨decode_encode (.rnd x nn), rndWith_completes (Config.randomByte s.draws) x nn s,
    fun r => rndWith_completes r x nn s⟩

end Sys2Proof.Machine
end

section
/-! PROOFS. The index register and memory transfers (spec/43_index_memory.md R91 to R96): the value I takes, the bytes a
store leaves from I on, the registers a load fills; a load gives back what the store before it took. -/

namespace Sys2Proof.Machine

/-! ### What the whole family leaves unchanged -/

/-- The part of the frame every instruction of this family has: it reaches no further than the registers, I, pc and
memory. -/
def SameStackAndDevices (s t : State) : Prop := SameStack s t ∧ SameDisplay s t ∧ SameTimers s t ∧ SameKeys s t

theorem sameStackAndDevices_update (s : State) (V : Vector Byte 16) (I pc : Word) (M : Memory) :
    SameStackAndDevices s { s with V := V, I := I, pc := pc, M := M } :=
  ⟨⟨rfl, fun _ => rfl⟩, ⟨fun _ _ => rfl, rfl⟩, ⟨rfl, rfl⟩, fun _ => rfl⟩

/-! ### The index register -/

/-- Setting I and going on changes I and pc only. -/
theorem setI_frame {s t : State} {w : Word} (ht : t = (s.setI w).nextInstr) :
    PcPlus 2 s t ∧ SameRegsExcept [] s t ∧ SameMemory s t ∧ SameStackAndDevices s t := by
  subst ht
  exact ⟨pcPlus_nextInstr s _ rfl, fun _ _ => rfl, fun _ => rfl, sameStackAndDevices_update s s.V w _ s.M⟩

/-- The glyph address of any byte fits 16 bits, so I holds it unreduced (R93). -/
theorem glyphAddress_toNat (a : Byte) : (glyphAddress a).toNat = a.toNat * 5 := by
  have hlt := a.isLt
  rw [glyphAddress, u16_toNat, Config.glyphBytes]
  omega

theorem leavesAddressRange_toNat (i : Word) (a : Byte) :
    (leavesAddressRange i a).toNat = if i.toNat + a.toNat > 0xFFF then 1 else 0 := by
  simp only [leavesAddressRange, flagByte_toNat, decide_eq_true_eq]

/-- Settles O24: both set I, to a target and to a glyph address, and neither value is reduced. -/
theorem loadIndexResult : Obligations.LoadIndexResult :=
  ⟨fun nnn _ => ⟨decode_encode (.ldI nnn), _, rfl, target_toNat nnn, setI_frame rfl⟩,
    fun x s => ⟨decode_encode (.ldFVx x), _, rfl, glyphAddress_toNat (s.reg x), setI_frame rfl⟩⟩

/-- Settles O25: I takes the sum reduced by u16, then VF the flag of the unreduced sum. -/
theorem addIndexResult : Obligations.AddIndexResult := by
  refine fun x s => ⟨decode_encode (.addIVx x), _, rfl, u16_toNat _, ?_, pcPlus_nextInstr s _ rfl, fun r hr => ?_,
    fun _ => rfl, sameStackAndDevices_update s _ _ _ s.M⟩
  · rw [State.reg_nextInstr, State.reg_setFlag, leavesAddressRange_toNat]
  · rw [State.reg_nextInstr, State.reg_setFlag_other _ _ (List.ne_of_not_mem_cons hr), State.reg_setI]

/-! ### Stores -/

/-- Storing `n` bytes from I on and going on changes those bytes and pc only. -/
theorem storeAtI_frame {s t : State} {bs : List Byte} {n : Nat} (hn : bs.length = n)
    (ht : t = (s.setM (s.M.writeBytes s.I.toNat bs)).nextInstr) :
    SameMemoryOutside s.I.toNat n s t ∧ t.I = s.I ∧ PcPlus 2 s t ∧ SameRegsExcept [] s t ∧
      SameStackAndDevices s t := by
  subst hn ht
  exact ⟨fun _ hk => Memory.read_writeBytes_outside _ _ _ hk, rfl, pcPlus_nextInstr s _ rfl, fun _ _ => rfl,
    sameStackAndDevices_update s s.V s.I _ _⟩

/-- The three bytes an FX33 leaves from `i` on (R94); each digit fits a byte, so u8 does not reduce it. -/
theorem read_decimalDigits_toNat {m m' : Memory} {i : Nat} {a : Byte} (hm : m' = m.writeBytes i (decimalDigits a)) :
    (m'.read i).toNat = a.toNat / 100 ∧ (m'.read (i + 1)).toNat = a.toNat / 10 % 10 ∧
      (m'.read (i + 2)).toNat = a.toNat % 10 := by
  have hlt := a.isLt
  have hread {k : Nat} (hk : k < 3) : m'.read (i + k) = (decimalDigits a)[k] :=
    hm ▸ Memory.read_writeBytes_inside m i (decimalDigits a) hk
  have hhundreds : m'.read i = u8 (a.toNat / 100) := hread (k := 0) (by decide)
  have htens : m'.read (i + 1) = u8 (a.toNat / 10 % 10) := hread (by decide)
  have hones : m'.read (i + 2) = u8 (a.toNat % 10) := hread (by decide)
  rw [hhundreds, htens, hones, u8_toNat, u8_toNat, u8_toNat]
  omega

/-- Settles O26: the three digits stand at I to I + 2, and nothing else is written. -/
theorem decimalStoreResult : Obligations.DecimalStoreResult := by
  refine fun x s => ⟨decode_encode (.ldBVx x), exec_ldBVx_out s x, fun hI => ⟨_, exec_ldBVx_next s x hI, ?_⟩⟩
  obtain ⟨hhundreds, htens, hones⟩ := read_decimalDigits_toNat (m := s.M) (i := s.I.toNat) (a := s.reg x) rfl
  exact ⟨hhundreds, htens, hones, storeAtI_frame (length_decimalDigits (s.reg x)) rfl⟩

/-- Settles O27: Vk stands at I + k for each k up to X, and nothing else is written. -/
theorem registerStoreResult : Obligations.RegisterStoreResult := fun x s =>
  ⟨decode_encode (.ldMemVx x), exec_ldMemVx_out s x, fun hI => ⟨_, exec_ldMemVx_next s x hI,
    fun k hk => s.read_writeBytes_firstRegs k hk, storeAtI_frame (length_firstRegs s.V x) rfl⟩⟩

/-! ### Loads -/

/-- A block load of V0..Vx fills Vk from I + k (R96). -/
theorem reg_load_of_le {s : State} {x k : RegIdx} (hk : k.toNat ≤ x.toNat) :
    (s.setV (loadRegs s.V s.M s.I.toNat (upTo x))).reg k = s.M.read (s.I.toNat + k.toNat) := by
  rw [State.reg_setV, getElem_loadRegs, if_pos (by unfold upTo; omega)]

/-- Settles O28: Vk is filled for each k up to X, and the registers above keep their values. -/
theorem registerLoadResult : Obligations.RegisterLoadResult := fun x s =>
  ⟨decode_encode (.ldVxMem x), exec_ldVxMem_out s x, fun hI => ⟨_, exec_ldVxMem_next s x hI,
    fun _ hk => reg_load_of_le hk, fun _ hk => reg_load_of_not_le (Nat.not_le_of_lt hk), rfl,
    pcPlus_nextInstr s _ rfl, fun _ => rfl, sameStackAndDevices_update s _ s.I _ s.M⟩⟩

/-- Settles O29: the load reads Vk where the store put it, at I + k. -/
theorem storeThenLoadRestoresRegisters : Obligations.StoreThenLoadRestoresRegisters := by
  intro x s u hI
  obtain ⟨-, -, hstore⟩ := registerStoreResult x s
  obtain ⟨t, hexec, hstored, -⟩ := hstore hI
  refine ⟨t, hexec, fun hM hIu => ?_⟩
  obtain ⟨-, -, hload⟩ := registerLoadResult x u
  obtain ⟨w, hexec', hloaded, -⟩ := hload (hIu ▸ hI)
  refine ⟨w, hexec', fun k hk => ?_⟩
  rw [hloaded k hk, hM, hIu, hstored k hk]

end Sys2Proof.Machine
end

section
/-! PROOFS. The display (spec/44_display.md R97 to R100): a DXYN inverts the pixels the set bits of its sprite land on, so
it has turned a pixel off exactly when one of them was on, and the same sprite again inverts the same pixels back. -/

namespace Sys2Proof.Machine

/-! ### What both instructions leave unchanged -/

/-- The frame of an instruction that reaches no further than the registers, pc and the display. -/
def SameButRegsPcDisplay (s t : State) : Prop :=
  t.I = s.I ∧ SameMemory s t ∧ SameStack s t ∧ SameTimers s t ∧ SameKeys s t

theorem sameButRegsPcDisplay_update (s : State) (V : Vector Byte 16) (pc : Word) (FB : Framebuffer) (RD : Bool) :
    SameButRegsPcDisplay s { s with V := V, pc := pc, FB := FB, RD := RD } :=
  ⟨rfl, fun _ => rfl, ⟨rfl, fun _ => rfl⟩, ⟨rfl, rfl⟩, fun _ => rfl⟩

theorem sameRegsExcept_VF_draw (s : State) (d : Blit) : SameRegsExcept [VF] s (s.draw d) :=
  fun _ hr => s.reg_draw_other (List.ne_of_not_mem_cons hr)

/-- Settles O31: the framebuffer the update leaves is the clear one. -/
theorem clearScreenResult : Obligations.ClearScreenResult :=
  ⟨decode_encode .cls, fun s => ⟨(s.redraw Framebuffer.clear).nextInstr, rfl, Framebuffer.pixel_clear, rfl,
    pcPlus_nextInstr s _ rfl, fun _ _ => rfl, sameButRegsPcDisplay_update s s.V _ _ true⟩⟩

/-! ### The pixels a DXYN inverts -/

section

variable (x y : RegIdx) (n : Nibble) (s : State)

/-- The screen positions the set bits of the sprite of a DXYN land on (R97, R98). -/
def spritePositions : List Pos := positions (s.reg x) (s.reg y) (s.M.readBytes s.I.toNat n.toNat) 0

variable {x y n s}

theorem mem_spritePositions {q : Pos} : q ∈ spritePositions x y n s ↔ ∃ col r, col < 8 ∧ r < n.toNat ∧
    spriteBit (s.M.read (s.I.toNat + r)) col = true ∧ q = (screenX (s.reg x) col, screenY (s.reg y) r) := by
  simp only [spritePositions, mem_positions, Memory.length_readBytes, Memory.getElem_readBytes, Nat.zero_add]
  constructor
  · rintro ⟨col, r, hr, hcol, hbit, hq⟩; exact ⟨col, r, hcol, hr, hbit, hq⟩
  · rintro ⟨col, r, hcol, hr, hbit, hq⟩; exact ⟨col, r, hr, hcol, hbit, hq⟩

/-- A sprite is at most 8 wide and 15 high, so no other bit of it lands where this one does (R98). -/
theorem screenPos_mem_spritePositions {col r : Nat} (hcol : col < 8) (hr : r < n.toNat) :
    (screenX (s.reg x) col, screenY (s.reg y) r) ∈ spritePositions x y n s ↔
      spriteBit (s.M.read (s.I.toNat + r)) col = true := by
  have hn := n.isLt
  rw [mem_spritePositions]
  constructor
  · rintro ⟨col', r', hcol', hr', hbit, hq⟩
    rwa [screenX_inj hcol hcol' (congrArg Prod.fst hq), screenY_inj (congrArg Prod.snd hq) (by omega) (by omega)]
  · exact fun hbit => ⟨col, r, hcol, hr, hbit, rfl⟩

variable (x y n s)

/-- A sprite is lower than the screen, so no two rows of it wrap onto one (R98). -/
theorem length_sprite_le : (s.M.readBytes s.I.toNat n.toNat).length ≤ 32 := by
  have hn := n.isLt
  rw [Memory.length_readBytes]
  omega

theorem pixel_drawOf (px : Fin 64) (py : Fin 32) : (drawOf x y n s).fb.pixel px py =
    (s.FB.pixel px py ^^ decide ((px, py) ∈ spritePositions x y n s)) :=
  (drawSprite_spec _ _ _ s.FB (length_sprite_le n s)).1 px py

/-- Where column `col` of row `r` lands, the draw inverts the pixel when that bit of the sprite is set (R97, R98, R100). -/
theorem pixel_drawOf_screenPos {col r : Nat} (hcol : col < 8) (hr : r < n.toNat) :
    (drawOf x y n s).fb.pixel (screenX (s.reg x) col) (screenY (s.reg y) r) =
      (s.FB.pixel (screenX (s.reg x) col) (screenY (s.reg y) r) ^^ spriteBit (s.M.read (s.I.toNat + r)) col) := by
  simp only [pixel_drawOf, screenPos_mem_spritePositions hcol hr, Bool.decide_eq_true]

theorem hit_drawOf : (drawOf x y n s).hit = (spritePositions x y n s).any (fun p => s.FB.pixel p.1 p.2) :=
  (drawSprite_spec _ _ _ s.FB (length_sprite_le n s)).2

/-- A pixel goes off when it was on and is inverted, so some pixel goes off exactly when there is a hit (R100). -/
theorem hit_drawOf_iff : (drawOf x y n s).hit = true ↔
    ∃ px py, s.FB.pixel px py = true ∧ (drawOf x y n s).fb.pixel px py = false := by
  rw [hit_drawOf, List.any_eq_true]
  constructor
  · rintro ⟨⟨px, py⟩, hmem, hon⟩
    exact ⟨px, py, hon, by rw [pixel_drawOf, hon, decide_eq_true hmem, Bool.xor_self]⟩
  · rintro ⟨px, py, hon, hoff⟩
    rw [pixel_drawOf, hon, Bool.true_xor, Bool.not_eq_false', decide_eq_true_eq] at hoff
    exact ⟨(px, py), hoff, hon⟩

theorem collisionFlag_eq_one (c : Bool) : collisionFlag c = 1 ↔ c = true := by
  cases c <;> decide

/-- VF reports a collision exactly when the draw turned a pixel off (R100). -/
theorem reg_VF_draw_drawOf_eq_one : (s.draw (drawOf x y n s)).reg VF = 1 ↔
    ∃ px py, s.FB.pixel px py = true ∧ (s.draw (drawOf x y n s)).FB.pixel px py = false := by
  rw [State.reg_draw, collisionFlag_eq_one, hit_drawOf_iff, State.draw_FB]

end

/-! ### One draw, and the same draw again -/

/-- Settles O32: a position the sprite covers is inverted when its own bit is set, and every other position stays. -/
theorem drawResult : Obligations.DrawResult := by
  refine fun x y n s => ⟨decode_encode (.drw x y n), exec_drw_out s x y n, fun hI => ⟨_, exec_drw_next s x y n hI,
    fun _ _ => pixel_drawOf_screenPos x y n s, fun px py hfree => ?_, reg_VF_draw_drawOf_eq_one x y n s, ?_, rfl,
    pcPlus_nextInstr s _ rfl, sameRegsExcept_VF_draw s _, sameButRegsPcDisplay_update s _ _ _ true⟩⟩
  · have hmem : (px, py) ∉ spritePositions x y n s := by
      intro hmem
      obtain ⟨col, r, hcol, hr, -, hq⟩ := mem_spritePositions.mp hmem
      obtain ⟨rfl, rfl⟩ := Prod.mk.inj hq
      exact hfree col r hcol hr ⟨rfl, rfl⟩
    rw [State.draw_FB, pixel_drawOf, decide_eq_false hmem, Bool.xor_false]
  · rw [State.reg_draw]
    exact isFlag_flagByte _

/-- A DXYN that goes on leaves the drawn state. -/
theorem eq_draw_of_exec_drw {x y : RegIdx} {n : Nibble} {s t : State} (h : exec (.drw x y n) s = .next t) :
    t = s.draw (drawOf x y n s) := by
  rw [exec_drw_eq] at h
  split at h
  · exact (Host.Outcome.next.inj h).symm
  · cases h

/-- Settles O33: both draws invert the same positions, so the second turns off what the first turned on. -/
theorem drawTwiceRestoresScreen : Obligations.DrawTwiceRestoresScreen := by
  intro x y n s t u v ht hFB hM hI hx hy hv
  obtain rfl := eq_draw_of_exec_drw ht
  obtain rfl := eq_draw_of_exec_drw hv
  have hpositions : spritePositions x y n u = spritePositions x y n s := by
    rw [spritePositions, hx, hy, hM, hI, ← spritePositions]
  have hrestored : (u.draw (drawOf x y n u)).FB = s.FB := by
    refine Framebuffer.eq_of_pixel fun px py => ?_
    rw [State.draw_FB, pixel_drawOf, hpositions, hFB, State.draw_FB, pixel_drawOf, Bool.xor_assoc, Bool.xor_self,
      Bool.xor_false]
  refine ⟨hrestored, ?_⟩
  rw [reg_VF_draw_drawOf_eq_one, hrestored, hFB]
  exact exists₂_congr fun _ _ => and_comm

end Sys2Proof.Machine
end

section
/-! PROOFS. Keypad and timers (spec/45_keypad_timers.md R101 to R106): a key skip is a skip on one latch, a wait for a key
is a register write or nothing at all, and a timer takes a register's value or gives its own to one. -/

namespace Sys2Proof.Machine

/-! ### Skips on a key -/

/-- A skip on the negated condition moves pc by 2 when the condition holds, by 4 otherwise (R63). -/
theorem pcPlus_skipIf_not (s : State) (c : Bool) : PcPlus (if c then 2 else 4) s (s.skipIf (!c)) := by
  cases c <;> exact pcPlus_skipIf s _

/-- Settles O34: Vx names the latch read, and only an index above 15 names none. -/
theorem skipKeyResult : Obligations.SkipKeyResult := by
  refine fun x s => ⟨decode_encode (.skp x), decode_encode (.sknp x),
    fun hbad => ⟨exec_skp_bad s x hbad, exec_sknp_bad s x hbad⟩, fun k hk => ?_⟩
  have hindex : (s.reg x).toNat < 16 := hk ▸ k.isLt
  obtain rfl : k = ⟨(s.reg x).toNat, hindex⟩ := Fin.ext hk.symm
  exact ⟨⟨_, exec_skp_next s x hindex, pcPlus_skipIf s _, onlyRegsAndPc_skipIf s _⟩,
    ⟨_, exec_sknp_next s x hindex, pcPlus_skipIf_not s _, onlyRegsAndPc_skipIf s _⟩⟩

/-! ### Timers -/

/-- The frame of an instruction that reaches no further than the timers and pc. -/
def SameButTimersPc (s t : State) : Prop :=
  SameRegsExcept [] s t ∧ t.I = s.I ∧ SameMemory s t ∧ SameStack s t ∧ SameDisplay s t ∧ SameKeys s t

theorem sameButTimersPc_update (s : State) (DT ST : Byte) (pc : Word) :
    SameButTimersPc s { s with DT := DT, ST := ST, pc := pc } :=
  ⟨fun _ _ => rfl, rfl, fun _ => rfl, ⟨rfl, fun _ => rfl⟩, ⟨fun _ _ => rfl, rfl⟩, fun _ => rfl⟩

/-- Settles O35: FX07 is a register write, and the other two each set their own timer and leave the other. -/
theorem timerTransferResult : Obligations.TimerTransferResult := fun x s =>
  ⟨⟨decode_encode (.ldVxDt x), writeReg_completes s x s.DT⟩,
    ⟨decode_encode (.ldDtVx x), _, rfl, rfl, rfl, pcPlus_nextInstr s _ rfl, sameButTimersPc_update s _ s.ST _⟩,
    ⟨decode_encode (.ldStVx x), _, rfl, rfl, rfl, pcPlus_nextInstr s _ rfl, sameButTimersPc_update s s.DT _ _⟩⟩

/-! ### The wait for a key -/

/-- A key's number fits a byte, so Vx holds it unreduced (R104). -/
theorem u8_key_toNat (k : Fin 16) : (u8 k.val).toNat = k.val := by
  rw [u8_toNat]
  omega

/-- Settles O36: without a key the step waits, and the lowest pressed key is the one the scan finds. -/
theorem waitForKeyResult : Obligations.WaitForKeyResult := by
  refine fun x s => ⟨decode_encode (.ldVxK x), fun hnone => ⟨exec_ldVxK_wait s x hnone, fun hf r => ?_⟩,
    fun k hk hbelow => ?_⟩
  · exact hostStep_of_waits (s.waits_iff.mpr ⟨⟨x, hf⟩, hnone⟩) r
  · have hlowest : s.lowestKey = some k := (s.lowestKey_eq_some k).mpr ⟨hk, hbelow⟩
    obtain ⟨t, hwrite, hx, hframe⟩ := writeReg_completes s x (u8 k.val)
    exact ⟨t, (exec_ldVxK_next s x k hlowest).trans hwrite, by rw [hx, u8_key_toNat], hframe⟩

end Sys2Proof.Machine
end

section
/-! PROOFS. Errors and quiescence (spec/60_exceptions.md R107 to R112, spec/70_reset_and_hazards.md R128): which
instruction raises what, what an error of a step carries, and the states no step changes. -/

namespace Sys2Proof.Machine

variable {i : Instr} {s : State} {f : Fault}

/-! ### Who raises what -/

/-- An instruction that raises has raised its own error (R108). -/
theorem ownError_of_exec_fault (h : exec i s = .fault f) : OwnError i s f := by
  obtain ⟨t, hnext⟩ | ⟨g, hown, hfault⟩ := exec_answers i s
  · cases hnext.symm.trans h
  · cases hfault.symm.trans h
    exact hown

/-- Settles O44: an instruction answers a next state or its own error, so one without an error of its own goes on. -/
theorem onlyTheseInstructionsRaise : Obligations.OnlyTheseInstructionsRaise := fun i s =>
  ⟨fun _ => ownError_of_exec_fault, fun hnone => (exec_answers i s).resolve_right fun ⟨f, hown, _⟩ => hnone f hown⟩

/-! ### What an error carries -/

/-- `ErrorOfStep s f`: the error `f` is of a kind a step can raise, and carries the pc of `s` (R107, R109). -/
def ErrorOfStep (s : State) (f : Fault) : Prop := f.atPc = some s.pc ∧ ∃ c, f.code = some c ∧ 2 ≤ c ∧ c ≤ 6

/-- The own error of every instruction carries pc, with the code of its kind. -/
theorem OwnError.errorOfStep (h : OwnError i s f) : ErrorOfStep s f := by
  cases i with
  | call =>
    obtain rfl : f = .callStackOverflow s.pc := h
    exact ⟨rfl, 2, rfl, by decide⟩
  | ret =>
    obtain rfl : f = .callStackUnderflow s.pc := h
    exact ⟨rfl, 3, rfl, by decide⟩
  | drw | ldBVx | ldMemVx | ldVxMem =>
    obtain rfl : f = .memoryAddressOutOfRange s.pc (max s.I.toNat 0x1000) := h
    exact ⟨rfl, 5, rfl, by decide⟩
  | skp x | sknp x =>
    obtain rfl : f = .keyIndexOutOfRange s.pc (s.reg x) := h
    exact ⟨rfl, 6, rfl, by decide⟩
  | _ => exact h.elim

/-- So do the errors of the fetch and of the decode (R58, R61). -/
theorem State.errorOfStep_of_fetchInstr (h : s.fetchInstr = .error f) : ErrorOfStep s f := by
  obtain ⟨-, rfl⟩ | ⟨-, w, -, rfl⟩ := State.fetchInstr_error h
  · exact ⟨rfl, 5, rfl, by decide⟩
  · exact ⟨rfl, 4, rfl, by decide⟩

/-- Settles O45: the error is that of the fetch or the decode, or the own error of the fetched instruction. -/
theorem stepErrorsCarryPc : Obligations.StepErrorsCarryPc := by
  intro s f h
  cases hf : s.fetchInstr with
  | error g =>
    cases (step_of_fetchInstr_error hf).symm.trans h
    exact State.errorOfStep_of_fetchInstr hf
  | ok i => exact (ownError_of_exec_fault ((step_of_fetchInstr hf).symm.trans h)).errorOfStep

/-! ### Quiescent states -/

/-- A step that raises has fetched no CXNN, so it raises the same whatever the random byte (R69, R112). -/
theorem stepWith_of_step_fault (h : step s = .fault f) (r : Byte) : stepWith r s = .fault f := by
  obtain ⟨hstep, hsame, -⟩ := onlyRndReadsRandomByte s
  have hne : ∀ x nn, s.fetchInstr ≠ .ok (.rnd x nn) := fun x nn hf => by cases (step_of_fetchInstr hf).symm.trans h
  rw [hsame hne r (Config.randomByte s.draws), ← hstep, h]

theorem hostStep_of_errs (h : Errs s) : ∃ f, ∀ r : Byte, hostStep r s = (.error f, s) := by
  obtain ⟨f, hstep⟩ := h
  exact ⟨f, fun r => hostStep_of_fault (stepWith_of_step_fault hstep r)⟩

/-- A jump to itself sets pc to what it is, and is no wait (R72, R128). -/
theorem hostStep_of_selfLoop (h : SelfLoop s) (r : Byte) : hostStep r s = (.executed, s) := by
  obtain ⟨nnn, hf, hpc⟩ := h
  have hexec : exec (.jp nnn) s = .next (s.setPc s.pc) := hpc ▸ rfl
  have hstep : stepWith r s = .next s := (stepWith_of_ne_rnd hf nofun r).trans hexec
  have hnowait : ¬ s.waits = true := by
    rw [s.waits_iff]
    rintro ⟨⟨x, hwait⟩, -⟩
    cases hf.symm.trans hwait
  rw [hostStep_of_next hstep, if_neg hnowait]

/-- Settles O49: each quiescent condition fixes the whole answer of the host's step, whatever the random byte; the reply
is the one to the byte 0. -/
theorem quiescentStatesStay : Obligations.QuiescentStatesStay := by
  intro s hq
  refine ⟨(hostStep 0 s).1, fun r => ?_, fun herrs => ?_, fun hloop => ?_, fun hwaits => ?_⟩
  · obtain herrs | hloop | hwaits := hq
    · obtain ⟨f, hf⟩ := hostStep_of_errs herrs
      rw [hf r, hf 0]
    · rw [hostStep_of_selfLoop hloop r, hostStep_of_selfLoop hloop 0]
    · rw [hostStep_of_waits hwaits r, hostStep_of_waits hwaits 0]
  · obtain ⟨f, hf⟩ := hostStep_of_errs herrs
    exact ⟨f, congrArg Prod.fst (hf 0)⟩
  · rw [hostStep_of_selfLoop hloop]
  · rw [hostStep_of_waits hwaits]

end Sys2Proof.Machine
end

section
/-! PROOFS. The host's operations beside the step (spec/60_exceptions.md R117 to R122): the tick of the timers, the key
writes, the reads and the acknowledge. -/

namespace Sys2Proof.Machine

variable {s : State} {op : HostOp} {k : Nat} {down : Bool}

/-- Settles O52: a tick changes the timers alone, and each is one less, or stays 0. -/
theorem tickResult : Obligations.TickResult := fun s =>
  ⟨s.tickTimers, rfl, ticked_toNat s.DT, ticked_toNat s.ST, rfl, sameButTimersPc_update s _ _ s.pc⟩

/-! ### Key writes -/

/-- A key write with an index above 15 is refused (R119). -/
theorem perform_keyWrite_refused (hop : performAfterReset op s = hostSetKey k down s) (hk : 15 < k) :
    perform op (some s) = (.refused (.hostKeyIndexOutOfRange k), some s) := by
  simp only [perform, hop, hostSetKey, s.setKey_of_ge down hk]

/-- A key write with an index 0..15 sets the latch of that index and no other (R119). -/
theorem perform_keyWrite_done (hop : performAfterReset op s = hostSetKey k down s) (hk : k < 16) :
    ∃ t, perform op (some s) = (.done, some t) ∧ t.KEY[k] = down ∧
      (∀ j : Fin 16, j.val ≠ k → t.KEY[j.val] = s.KEY[j.val]) ∧ t = { s with KEY := t.KEY } := by
  refine ⟨{ s with KEY := s.KEY.set k down hk }, ?_, Vector.getElem_set_self hk,
    fun j hj => Vector.getElem_set_ne hk j.isLt hj.symm, rfl⟩
  simp only [perform, hop, hostSetKey, s.setKey_of_lt down hk]

/-- Settles O53: both operations are the same key write, one with true and one with false. -/
theorem keyWriteResult : Obligations.KeyWriteResult := fun _ _ =>
  ⟨fun hk => ⟨perform_keyWrite_refused rfl hk, perform_keyWrite_refused rfl hk⟩,
    fun hk => ⟨perform_keyWrite_done rfl hk, perform_keyWrite_done rfl hk⟩⟩

/-! ### The framebuffer as the host reads it -/

theorem Framebuffer.length_cells (fb : Framebuffer) : fb.cells.length = 2048 := by
  rw [Framebuffer.cells, List.length_map, List.length_range]

/-- Column and row are the remainder and the quotient of the cell's number by 64 (R120). -/
theorem Framebuffer.cell_rowMajor (fb : Framebuffer) (x : Fin 64) (y : Fin 32) :
    fb.cell (y.val * 64 + x.val) = fb.pixel x y := by
  have hx : Fin.ofNat 64 ((y.val * 64 + x.val) % 64) = x := Fin.ext (by rw [Fin.val_ofNat]; omega)
  have hy : Fin.ofNat 32 ((y.val * 64 + x.val) / 64) = y := Fin.ext (by rw [Fin.val_ofNat]; omega)
  rw [Framebuffer.cell, hx, hy]

theorem Framebuffer.getElem?_cells (fb : Framebuffer) (x : Fin 64) (y : Fin 32) :
    fb.cells[y.val * 64 + x.val]? = some (fb.pixel x y) := by
  have hcell : y.val * 64 + x.val < 2048 := by omega
  rw [Framebuffer.cells, List.getElem?_map, List.getElem?_range hcell, Option.map_some, fb.cell_rowMajor]

/-- Settles O54: the reads answer from the state they leave as it was, the cells in row-major order. -/
theorem hostReadsResult : Obligations.HostReadsResult := fun s =>
  ⟨⟨s.FB.cells, rfl, s.FB.length_cells, s.FB.getElem?_cells⟩, rfl, rfl⟩

end Sys2Proof.Machine
end

section
/-! PROOFS. Reset and loadProgram (spec/70_reset_and_hazards.md R129 to R132): the values a reset leaves, the bytes a
loaded ROM puts at 0x200, and the operations that have no meaning before either. -/

namespace Sys2Proof.Machine

/-! ### The state a reset leaves -/

/-- The state a reset leaves, from power-on or from a state: only the model's draw counter depends on which (log 17). -/
def justReset : Option State → State
  | none => State.reset
  | some s => s.resetAgain

theorem justReset_eq (o : Option State) : ∃ n, justReset o = { State.reset with draws := n } := by
  cases o with
  | none => exact ⟨0, rfl⟩
  | some s => exact ⟨s.draws, rfl⟩

theorem perform_reset (o : Option State) : perform .reset o = (.done, some (justReset o)) := by cases o <;> rfl

/-- loadProgram is the copy into the state a reset leaves (R130). -/
theorem perform_loadProgram (bytes : List Byte) (o : Option State) : perform (.loadProgram bytes) o =
    ((hostLoad bytes (justReset o)).1, some (hostLoad bytes (justReset o)).2) := by cases o <;> rfl

/-! ### Reset memory -/

theorem length_FONT : FONT.length = 80 := rfl

/-- The font's own addresses read as the font (R31). -/
theorem getElem?_FONT_eq_initial {a : Nat} (ha : a < 80) : FONT[a]? = some (Memory.initial a) := by
  have hlen : a < FONT.length := length_FONT ▸ ha
  rw [Memory.initial, List.getD_eq_getElem _ _ hlen, List.getElem?_eq_getElem hlen]

/-- Past the font, memory reads as 0 (R32). -/
theorem Memory.initial_eq_zero {a : Nat} (ha : 80 ≤ a) : Memory.initial a = 0 :=
  List.getD_eq_default _ _ (length_FONT ▸ ha)

/-- Settles O50: whatever was before, the state is the reset state but for the draw counter; its memory lists no byte, so
each address reads as its reset contents. -/
theorem resetLeavesResetValues : Obligations.ResetLeavesResetValues := by
  intro before
  obtain ⟨n, hreset⟩ := justReset_eq before
  exact ⟨{ State.reset with draws := n }, hreset ▸ perform_reset before, fun r => Vector.getElem_replicate r.isLt,
    rfl, rfl, rfl, rfl, rfl, rfl, fun k => Vector.getElem_replicate k.isLt, fun k => Vector.getElem_replicate k.isLt,
    Framebuffer.pixel_clear, fun _ => getElem?_FONT_eq_initial, fun _ => Memory.initial_eq_zero⟩

/-! ### Loading a ROM -/

theorem hostLoad_of_fits {bytes : List Byte} (h : bytes.length ≤ 3584) (s : State) :
    hostLoad bytes s = (.done, s.loadRom bytes) := by
  rw [hostLoad, if_pos ((romFits_eq_true bytes).mpr h)]

theorem hostLoad_of_oversized {bytes : List Byte} (h : 3584 < bytes.length) (s : State) :
    hostLoad bytes s = (.error (.romTooLarge bytes.length), s) := by
  rw [hostLoad, (romFits_eq_false bytes).mpr h, if_neg Bool.false_ne_true]

/-- The copy of a ROM reaches memory alone, and there only the ROM's own bytes (R130). -/
theorem State.loadRom_frame (s : State) (bytes : List Byte) :
    SameMemoryOutside 0x200 bytes.length s (s.loadRom bytes) ∧ (s.loadRom bytes).pc = s.pc ∧
      SameRegsExcept [] s (s.loadRom bytes) ∧ (s.loadRom bytes).I = s.I ∧ SameStackAndDevices s (s.loadRom bytes) :=
  ⟨fun _ => s.loadRom_read_outside bytes, rfl, fun _ _ => rfl, rfl, sameStackAndDevices_update s s.V s.I s.pc _⟩

/-- Settles O51: a ROM that fits is copied into the state a reset leaves, one that does not leaves that state. -/
theorem loadProgramResult : Obligations.LoadProgramResult := by
  intro bytes before
  refine ⟨justReset before, (justReset before).loadRom bytes, perform_reset before, fun hlarge => ?_, fun hfits => ⟨?_,
    fun _ => (justReset before).loadRom_read_inside bytes, (justReset before).loadRom_frame bytes⟩⟩
  · rw [perform_loadProgram, hostLoad_of_oversized hlarge]
  · rw [perform_loadProgram, hostLoad_of_fits hfits]

/-! ### Before the first reset -/

/-- Settles O55: operation by operation; the two with a meaning are excluded. -/
theorem nothingRunsBeforeReset : Obligations.NothingRunsBeforeReset := by
  intro op hreset hload
  cases op with
  | reset => exact absurd rfl hreset
  | loadProgram bytes => exact absurd rfl (hload bytes)
  | step | tickTimers | setKeyDown | setKeyUp | readFramebuffer | acknowledgeRedraw | readSound => rfl

end Sys2Proof.Machine
end
